-- ==== Sys2Proof/Word.lean ====
section
/-! DEFINITION. The machine's word types: bytes, 16-bit words and the fields of an instruction word. -/

namespace Sys2Proof

/-- The content of a general register, of a timer and of a memory cell (R20, R32, R60). -/
abbrev Byte := BitVec 8

/-- An instruction word, and the width of `I`, `PC` and a stack entry (R25, R26, R29, R90). -/
abbrev Word := BitVec 16

/-- A 4-bit field: a register number `x` or `y`, a height `n`, an operation nibble (R91). -/
abbrev Nibble := BitVec 4

/-- The 12-bit field `nnn` (R91). -/
abbrev Addr12 := BitVec 12

/-- `zext_16(v)`: `v` extended with zero bits to 16 bits (R9). -/
abbrev zext16 (v : BitVec n) : Word := v.setWidth 16

end Sys2Proof
end

