-- ==== Sys2Proof/Config.lean ====
section
/-! DEFINITION. What an implementation fixes (R6), the fixed sizes, and the values the spec leaves
free, which are constants without a body. -/

namespace Sys2Proof

/-- The draw-wrap-vs-clip quirk (R6, R161). -/
inductive DrawMode where
  | clip
  | wrap
  deriving DecidableEq, Repr

/-- The quirk configuration: the five straps that the Reset event samples (R38, R6). -/
structure Quirks where
  /-- `Q_SHIFT`: shift `V[x]` in place when on, `V[y]` into `V[x]` when off (R148, R150). -/
  shift : Bool
  /-- `Q_JUMP`: the offset register of BNNN is `V[x]` when on, `V[0]` when off (R123). -/
  jump : Bool
  /-- `DRAW_MODE` (R161). -/
  drawMode : DrawMode
  /-- `Q_MEMINC`: `I` advances by x+1 after FX55 and FX65 (R183, R184). -/
  memInc : Bool
  /-- `Q_ADDI_FLAG`: FX1E writes VF (R181). -/
  addIFlag : Bool
  deriving DecidableEq, Repr

namespace Config

/-- Bytes of memory (R60). -/
def memSize : Nat := 4096

/-- Where a program is loaded and where execution starts (R50, R61, R244). -/
def programBase : Nat := 0x200

/-- The longest program that Load accepts: 4096 − 512 bytes (R244). -/
def maxRom : Nat := 3584

/-- Length of the font table: 16 glyphs of 5 bytes (R66). -/
def fontSize : Nat := 80

/-- The straps of the reference configuration REF (R6).
DESIGN CHOICE (log 1): `State.reset` takes them; claims quantify over every setting. -/
def refQuirks : Quirks :=
  { shift := true, jump := false, drawMode := .clip, memInc := false, addIFlag := false }

/-- The reference value of `FONT_BASE` (R6, R66).
DESIGN CHOICE (log 1): `State.reset` takes it; claims quantify over every legal value. -/
def refFontBase : Nat := 0x050

/-- The key sample of the unscripted pass number `k`: a free input (R42, log 3). -/
opaque keysIn : Nat → BitVec 16

/-- The random byte of the unscripted pass number `k`: a free input (R44, log 3). -/
opaque rndIn : Nat → Byte

/-- How many unscripted passes go by without a Tick, counted from pass number `k` on, when the wait for
the next Tick begins there: free, but finite, since Ticks keep occurring (R45, R221, log 30). -/
opaque tickGap : Nat → Nat

/-- How many Ticks beyond the first fall just before the unscripted pass number `k`, where one is due:
free (R45, log 30). -/
opaque extraTicks : Nat → Nat

/-- `KEYWAIT_PICK`: which of several newly pressed keys key-wait reports (R173, log 4). The value is
used as a position, modulo their number, in the list of the newly pressed keys. -/
opaque keywaitPick : BitVec 16 → Nat

end Config
end Sys2Proof
end

