-- ==== Sys2Proof/Syntax.lean ====
section
/-! DEFINITION. The instruction set of R101: one constructor for each row of spec/opcode_table.json. -/

namespace Sys2Proof

/-- The 34 instructions of R101. A register number is the nibble that encodes it (R93: every value is
a register), an immediate is the field of the word that holds it (R91), so no operand can be out of
range. -/
inductive Instr where
  /-- 00E0 `CLS` (R160) -/
  | cls
  /-- 00EE `RET` (R120) -/
  | ret
  /-- 1NNN `JP nnn` (R121) -/
  | jp (nnn : Addr12)
  /-- 2NNN `CALL nnn` (R122) -/
  | call (nnn : Addr12)
  /-- 3XNN `SE Vx, nn` (R124) -/
  | seImm (x : Nibble) (nn : Byte)
  /-- 4XNN `SNE Vx, nn` (R125) -/
  | sneImm (x : Nibble) (nn : Byte)
  /-- 5XY0 `SE Vx, Vy` (R126) -/
  | seReg (x y : Nibble)
  /-- 6XNN `LD Vx, nn` (R140) -/
  | ldImm (x : Nibble) (nn : Byte)
  /-- 7XNN `ADD Vx, nn` (R141) -/
  | addImm (x : Nibble) (nn : Byte)
  /-- 8XY0 `LD Vx, Vy` (R142) -/
  | ldReg (x y : Nibble)
  /-- 8XY1 `OR Vx, Vy` (R143) -/
  | orReg (x y : Nibble)
  /-- 8XY2 `AND Vx, Vy` (R144) -/
  | andReg (x y : Nibble)
  /-- 8XY3 `XOR Vx, Vy` (R145) -/
  | xorReg (x y : Nibble)
  /-- 8XY4 `ADD Vx, Vy` (R146) -/
  | addReg (x y : Nibble)
  /-- 8XY5 `SUB Vx, Vy` (R147) -/
  | sub (x y : Nibble)
  /-- 8XY6 `SHR Vx, Vy` (R148) -/
  | shr (x y : Nibble)
  /-- 8XY7 `SUBN Vx, Vy` (R149) -/
  | subn (x y : Nibble)
  /-- 8XYE `SHL Vx, Vy` (R150) -/
  | shl (x y : Nibble)
  /-- 9XY0 `SNE Vx, Vy` (R127) -/
  | sneReg (x y : Nibble)
  /-- ANNN `LD I, nnn` (R180) -/
  | ldI (nnn : Addr12)
  /-- BNNN `JP V0, nnn` (R123) -/
  | jpV0 (nnn : Addr12)
  /-- CXNN `RND Vx, nn` (R151) -/
  | rnd (x : Nibble) (nn : Byte)
  /-- DXYN `DRW Vx, Vy, n` (R161) -/
  | drw (x y n : Nibble)
  /-- EX9E `SKP Vx` (R170) -/
  | skp (x : Nibble)
  /-- EXA1 `SKNP Vx` (R171) -/
  | sknp (x : Nibble)
  /-- FX07 `LD Vx, DT` (R190) -/
  | ldVxDT (x : Nibble)
  /-- FX0A `LD Vx, K` (R172) -/
  | ldVxK (x : Nibble)
  /-- FX15 `LD DT, Vx` (R191) -/
  | ldDTVx (x : Nibble)
  /-- FX18 `LD ST, Vx` (R192) -/
  | ldSTVx (x : Nibble)
  /-- FX1E `ADD I, Vx` (R181) -/
  | addI (x : Nibble)
  /-- FX29 `LD F, Vx` (R162) -/
  | ldF (x : Nibble)
  /-- FX33 `LD B, Vx` (R182) -/
  | ldB (x : Nibble)
  /-- FX55 `LD [I], Vx` (R183) -/
  | ldMemVx (x : Nibble)
  /-- FX65 `LD Vx, [I]` (R184) -/
  | ldVxMem (x : Nibble)
  deriving DecidableEq, Repr

end Sys2Proof
end

