-- ==== Sys2Proof/WellFormed.lean ====
section
/-! DEFINITION. What makes an instruction, a font base and a program image well formed. -/

namespace Sys2Proof

/-- An instruction is well formed when its operands are legal. R93: "every value is a valid register
number, so no register field can be illegal", and every value of `n`, `nn` and `nnn` is legal; the
operand types of `Instr` hold exactly those values, so the check passes for every term. -/
def Instr.wellFormed : Instr → Bool
  | .cls | .ret => true
  | .jp nnn | .call nnn | .ldI nnn | .jpV0 nnn => decide (nnn.toNat < Config.memSize)
  | .seImm x nn | .sneImm x nn | .ldImm x nn | .addImm x nn | .rnd x nn =>
    decide (x.toNat < 16 ∧ nn.toNat < 256)
  | .seReg x y | .sneReg x y | .ldReg x y | .orReg x y | .andReg x y | .xorReg x y | .addReg x y
  | .sub x y | .shr x y | .subn x y | .shl x y => decide (x.toNat < 16 ∧ y.toNat < 16)
  | .drw x y n => decide (x.toNat < 16 ∧ y.toNat < 16 ∧ n.toNat < 16)
  | .skp x | .sknp x | .ldVxDT x | .ldVxK x | .ldDTVx x | .ldSTVx x | .addI x | .ldF x | .ldB x
  | .ldMemVx x | .ldVxMem x => decide (x.toNat < 16)

/-- `FONT_BASE` is legal when the whole font table lies below 0x200 (R66). -/
def wellFormedFontBase (base : Nat) : Bool := decide (base + Config.fontSize ≤ Config.programBase)

/-- A program image is well formed when Load accepts it: at most 3584 bytes (R244). -/
def wellFormedRom (bytes : List Byte) : Bool := decide (bytes.length ≤ Config.maxRom)

end Sys2Proof
end

