-- ==== Sys2Proof/Machine/State.lean ====
section
/-! DEFINITION. The state of the core: everything the spec gives the machine, as plain data, and its
value after reset (R50, R240). -/

namespace Sys2Proof.Machine

/-- `RS` (R34). Halted is terminal until Reset (R35, R48). -/
inductive RunState where
  | running
  | waitingForKey
  | halted
  deriving DecidableEq, Repr

/-- `ERR.kind`: no error, or one of the four fatal errors of R200. -/
inductive ErrKind where
  | none
  | unknownOpcode
  | stackOverflow
  | stackUnderflow
  | outOfBounds
  deriving DecidableEq, Repr

/-- `ERR`, the error record (R36). -/
structure ErrorRecord where
  kind : ErrKind
  /-- the address of the instruction whose pass faulted -/
  pc : Word
  /-- the fetched word, 0 when the fetch itself faulted -/
  word : Word
  /-- the lowest out-of-range address for `outOfBounds`, else 0 -/
  addr : BitVec 17
  deriving DecidableEq, Repr

/-- The record of R50: all fields 0. -/
def ErrorRecord.clear : ErrorRecord := { kind := .none, pc := 0, word := 0, addr := 0 }

/-- Memory (R39, R60). `cells` lists, by rising address, the bytes that differ from what memory holds
after Reset; an unlisted address reads as `Memory.resetByte` (Machine/Memory.lean). `fontBase` is the
parameter `FONT_BASE` (R6, R66). -/
structure Memory where
  fontBase : Nat
  cells : List Host.Cell
  deriving DecidableEq, Repr

/-- The display buffer (R40): bit `c` of row `r` is `FB[r][c]`, the numbering of the display port
(R222: `fb[r*64+c]`). -/
abbrev Display := Vector (BitVec 64) 32

/-- The atomic events of R45, with their inputs. -/
inductive Event where
  /-- Reset, with the five straps (R240) -/
  | reset (q : Quirks)
  /-- Load of a program (R244) -/
  | load (bytes : List Byte)
  /-- Pass, with the key sample and the random byte (R46, R47) -/
  | pass (keys : BitVec 16) (rnd : Byte)
  /-- Tick (R220) -/
  | tick
  /-- Frame: the outputs are read, nothing changes (R224) -/
  | frame
  deriving DecidableEq, Repr

/-- The state of the core. -/
structure State where
  /-- `V[0]` to `V[15]`; `V[15]` is VF (R20, R23) -/
  v : Vector Byte 16
  /-- `I` (R25) -/
  i : Word
  /-- `PC` (R26) -/
  pc : Word
  /-- `STACK[0]` to `STACK[15]` (R29) -/
  stack : Vector Word 16
  /-- `SP`, the number of valid stack entries, 0 to 16 (R29) -/
  sp : Fin 17
  /-- `DT` (R32) -/
  dt : Byte
  /-- `ST` (R33) -/
  st : Byte
  /-- `RS` (R34) -/
  rs : RunState
  /-- `ERR` (R36) -/
  err : ErrorRecord
  /-- the sampled straps (R38) -/
  quirks : Quirks
  /-- `MEM` (R39) -/
  mem : Memory
  /-- `FB` (R40) -/
  fb : Display
  /-- `WAIT_X` (R43) -/
  waitX : Nibble
  /-- `PREV_KEYS` (R43) -/
  prevKeys : BitVec 16
  /-- `KEYS`, the sample of the current pass (R42, R46) -/
  keys : BitVec 16
  /-- `rnd`, the random byte of the current pass (R44) -/
  rnd : Byte
  /-- the port `load_ok` (R222, R244) -/
  loadOk : Bool
  /-- the MODEL's field: Load is still enabled, no Pass and no Load since Reset (R244, log 6) -/
  loadOpen : Bool
  /-- the MODEL's field: the coming events, first one next (R45, log 3) -/
  pending : List Event
  /-- the MODEL's field: the number of unscripted passes so far, the index of their free inputs (log 3) -/
  clock : Nat
  deriving DecidableEq, Repr

/-- Why a step cannot be taken. Every one is an event that the spec calls not enabled; the four fatal
errors of R200 are not here: their entry (R205) is a next state. -/
inductive Fault where
  /-- A Pass or a Tick is due in the Halted state, where neither is enabled (R48). Raised by the step
  (`runPass`, `runEvent`). Safe: the model stops, and only a pending Reset goes on (log 5). -/
  | halted
  /-- A Pass is due after a refused Load; the core must not be run (R244). Raised by `runEvent`.
  Safe: the model stops (log 6). -/
  | loadRefused
  /-- A Load is due after the first Pass or after another Load, where it is not enabled (R244). Raised
  by `runEvent`. Safe: the model stops (log 6). -/
  | loadNotEnabled
  deriving DecidableEq, Repr

/-- Why an instruction has no meaning. -/
inductive Refusal where
  /-- the instruction is not modelled yet; raised by an arm of `exec` only. Safe: the model stops. -/
  | notModelled (mnemonic : String)
  deriving DecidableEq, Repr

/-- What Reset leaves (R50, R240), for the sampled straps and the implementation's `FONT_BASE`.
DESIGN CHOICE (log 3): the values of `keys`, `rnd`, `pending` and `clock`, which R50 does not give. -/
def State.resetWith (q : Quirks) (fontBase : Nat) : State :=
  { v := Vector.replicate 16 0
    i := 0
    pc := 0x0200
    stack := Vector.replicate 16 0
    sp := 0
    dt := 0
    st := 0
    rs := .running
    err := ErrorRecord.clear
    quirks := q
    mem := { fontBase := fontBase, cells := [] }
    fb := Vector.replicate 32 0
    waitX := 0
    prevKeys := 0
    keys := 0
    rnd := 0
    loadOk := true
    loadOpen := true
    pending := []
    clock := 0 }

/-- The machine right after reset, in the reference configuration (R6, R50).
DESIGN CHOICE (log 1): the straps and `FONT_BASE`, which are inputs and parameters. -/
def State.reset : State := State.resetWith Config.refQuirks Config.refFontBase

end Sys2Proof.Machine
end

