-- ==== Sys2Proof/Machine/Memory.lean ====
section
/-! DEFINITION. Memory: what it holds after Reset, reading and writing one byte and several, and the
canonical form (R60 to R66). -/

namespace Sys2Proof.Machine

/-- The font table: 16 glyphs of 5 bytes, top row first (R66).
UNVERIFIED (log 9): the spec takes the bytes from general knowledge. -/
def fontBytes : List Byte :=
  [0xF0, 0x90, 0x90, 0x90, 0xF0] ++ [0x20, 0x60, 0x20, 0x20, 0x70] ++
  [0xF0, 0x10, 0xF0, 0x80, 0xF0] ++ [0xF0, 0x10, 0xF0, 0x10, 0xF0] ++
  [0x90, 0x90, 0xF0, 0x10, 0x10] ++ [0xF0, 0x80, 0xF0, 0x10, 0xF0] ++
  [0xF0, 0x80, 0xF0, 0x90, 0xF0] ++ [0xF0, 0x10, 0x20, 0x40, 0x40] ++
  [0xF0, 0x90, 0xF0, 0x90, 0xF0] ++ [0xF0, 0x90, 0xF0, 0x10, 0xF0] ++
  [0xF0, 0x90, 0xF0, 0x90, 0x90] ++ [0xE0, 0x90, 0xE0, 0x90, 0xE0] ++
  [0xF0, 0x80, 0x80, 0x80, 0xF0] ++ [0xE0, 0x90, 0x90, 0x90, 0xE0] ++
  [0xF0, 0x80, 0xF0, 0x80, 0xF0] ++ [0xF0, 0x80, 0xF0, 0x80, 0x80]

/-- What address `a` holds after Reset, and so what an unlisted address reads as: the font at
`FONT_BASE`, 0x00 elsewhere (R50, R66, R241; log 11). -/
def Memory.resetByte (fontBase a : Nat) : Byte :=
  if fontBase ≤ a then fontBytes.getD (a - fontBase) 0 else 0

/-- The listed byte of an address, if it is listed. -/
def lookupCell (a : Nat) : List Host.Cell → Option Byte
  | [] => none
  | (b, v) :: rest => if a = b then some v else lookupCell a rest

/-- `MEM[a]`: the value that `MemRead(a, 1)` returns for an address in range (R62). -/
def Memory.read (m : Memory) (a : Nat) : Byte :=
  (lookupCell a m.cells).getD (Memory.resetByte m.fontBase a)

/-- Putting `v` at address `a` of a rising list, where `d` is what `a` reads as when unlisted. -/
def setCell (d : Byte) (a : Nat) (v : Byte) : List Host.Cell → List Host.Cell
  | [] => if v = d then [] else [(a, v)]
  | (b, u) :: rest =>
    if a < b then (if v = d then (b, u) :: rest else (a, v) :: (b, u) :: rest)
    else if a = b then (if v = d then rest else (a, v) :: rest)
    else (b, u) :: setCell d a v rest

/-- `MEM[a] <- v`: what `MemWrite(a, 1, v)` does for an address in range (R62). -/
def Memory.write (m : Memory) (a : Nat) (v : Byte) : Memory :=
  { m with cells := setCell (Memory.resetByte m.fontBase a) a v m.cells }

/-- Consecutive byte reads at rising addresses (R69). -/
def Memory.readBytes (m : Memory) (a : Nat) : Nat → List Byte
  | 0 => []
  | n + 1 => m.read a :: m.readBytes (a + 1) n

/-- Consecutive byte writes at rising addresses (R69). -/
def Memory.writeBytes (m : Memory) (a : Nat) : List Byte → Memory
  | [] => m
  | v :: vs => (m.write a v).writeBytes (a + 1) vs

/-- The listed addresses rise strictly from `lo`, stay inside memory, and no entry says what an
unlisted address reads as. -/
def canonicalFrom (fontBase : Nat) : Nat → List Host.Cell → Bool
  | _, [] => true
  | lo, (a, v) :: rest =>
    decide (lo ≤ a) && decide (a < Config.memSize) && (v != Memory.resetByte fontBase a) &&
      canonicalFrom fontBase (a + 1) rest

/-- The canonical form of memory, with a legal `FONT_BASE` (R66). -/
def Memory.wf (m : Memory) : Bool :=
  wellFormedFontBase m.fontBase && canonicalFrom m.fontBase 0 m.cells

end Sys2Proof.Machine
end

