-- ==== Sys2Proof/Machine/Ops.lean ====
section
/-! DEFINITION. The named operations over registers, stack, memory and display, and fault entry. -/

namespace Sys2Proof.Machine

/-! ### Registers -/

/-- `V[x]` (R20). -/
def State.reg (s : State) (x : Nibble) : Byte := s.v[x.toNat]'x.isLt

/-- `V[x] <- b` (R20). -/
def State.setReg (s : State) (x : Nibble) (b : Byte) : State :=
  { s with v := s.v.set x.toNat b x.isLt }

/-- The number of VF (R23). -/
abbrev vf : Nibble := 0xF#4

/-- `I <- a`. -/
def State.setI (s : State) (a : Word) : State := { s with i := a }

/-- `PC <- a` (R128 (a): the target is written as it is computed). -/
def State.setPc (s : State) (a : Word) : State := { s with pc := a }

/-- A skip: `PC <- (PC + 2) mod 65536` when the condition holds (R128 (c)). -/
def State.skipIf (s : State) (c : Bool) : State := s.setPc (if c then s.pc + 2 else s.pc)

/-! ### Fault entry (R205). There is no return from a fault (R209); Reset is `resetEvent`. -/

/-- Fault entry: the error record is written and the core halts; nothing else changes (R205, R207).
`a` is the address of the faulting instruction, `w` its word, `addr` the out-of-range address. -/
def takeFault (k : ErrKind) (a w : Word) (addr : BitVec 17) (s : State) : State :=
  { s with err := { kind := k, pc := a, word := w, addr := addr }, rs := .halted }

/-- `raise` in the execution of `ins`: `PC` holds A + 2 there and stays so (R206), so A is `PC` − 2,
and the fetched word is the instruction's only encoding (R109; log 8). -/
def raise (k : ErrKind) (ins : Instr) (addr : BitVec 17) (s : State) : State :=
  takeFault k (s.pc - 2) (encode ins) addr s

/-! ### The call stack -/

/-- `push(v)` (R30): `none` is StackOverflow. -/
def State.push (s : State) (a : Word) : Option State :=
  if h : s.sp.val < 16 then
    some { s with stack := s.stack.set s.sp.val a h, sp := ⟨s.sp.val + 1, by omega⟩ }
  else none

/-- `pop()` (R31): the popped address and the state after; `none` is StackUnderflow. -/
def State.pop (s : State) : Option (Word × State) :=
  if h : 0 < s.sp.val then
    some (s.stack[s.sp.val - 1]'(by omega), { s with sp := ⟨s.sp.val - 1, by omega⟩ })
  else none

/-! ### Memory -/

/-- The check of a whole range before anything changes (R62, R69): the lowest out-of-range address of
the `len` bytes from `first`, if one of them lies above 4095. -/
def checkRange (first len : Nat) : Option (BitVec 17) :=
  if 0 < len ∧ Config.memSize < first + len then some (BitVec.ofNat 17 (max Config.memSize first))
  else none

/-- Consecutive byte writes from address `a` (R62, R69). -/
def State.store (s : State) (a : Nat) (bytes : List Byte) : State :=
  { s with mem := s.mem.writeBytes a bytes }

/-! ### The display (R40) -/

/-- `FB[r][c]`. -/
def Display.pixel (fb : Display) (r : Fin 32) (c : Fin 64) : Bool := fb[r].getLsbD c.val

/-- `FB[r][c] <- not FB[r][c]`. -/
def Display.toggle (fb : Display) (r : Fin 32) (c : Fin 64) : Display :=
  fb.set r.val (fb[r] ^^^ BitVec.twoPow 64 c.val)

/-- Every pixel false (R160). -/
def Display.blank : Display := Vector.replicate 32 0

end Sys2Proof.Machine
end

