-- ==== Sys2Proof/Machine/Operands.lean ====
section
/-! DEFINITION. The operand forms: registers chosen by a quirk, the key index and the font digit, the
decimal digits, the register block of a dump or load, and the pixels of a sprite. -/

namespace Sys2Proof.Machine

/-- The operand of a shift: `V[x]` when `Q_SHIFT` is on, `V[y]` when it is off (R148, R150; log 14). -/
def State.shiftOperand (s : State) (x y : Nibble) : Byte :=
  if s.quirks.shift then s.reg x else s.reg y

/-- The offset of BNNN: `V[x]`, x the top nibble of nnn, when `Q_JUMP` is on, `V[0]` when it is off
(R123; log 15). -/
def State.jumpOffset (s : State) (nnn : Addr12) : Byte :=
  if s.quirks.jump then s.reg (nnn.extractLsb' 8 4) else s.reg 0

/-- `V[x] & 0x0F`: the key index of EX9E and EXA1 and the digit of FX29 (R162, R170, R171; log 20). -/
def State.lowNibble (s : State) (x : Nibble) : Nibble := (s.reg x).setWidth 4

/-- `KEYS[k]` (R42). -/
def State.keyDown (s : State) (k : Nibble) : Bool := s.keys.getLsbD k.toNat

/-- The address of the glyph of digit `d` (R66, R162). -/
def State.glyphAddress (s : State) (d : Nibble) : Word := BitVec.ofNat 16 (s.mem.fontBase + 5 * d.toNat)

/-- The three decimal digits of a byte: hundreds, tens, ones (R182). -/
def bcdDigits (b : Byte) : List Byte :=
  [BitVec.ofNat 8 (b.toNat / 100), BitVec.ofNat 8 (b.toNat / 10 % 10), BitVec.ofNat 8 (b.toNat % 10)]

/-- The number of registers that FX55 and FX65 move: x + 1 (R183, R184). -/
def regCount (x : Nibble) : Nat := x.toNat + 1

/-- The values of `V[0]` to `V[x]`, in order (R183). -/
def State.dumpBytes (s : State) (x : Nibble) : List Byte := s.v.toList.take (regCount x)

/-- `V[0]`, `V[1]`, … take the bytes in turn, from register number `k` on (R184). -/
def loadRegs (k : Nat) : List Byte → Vector Byte 16 → Vector Byte 16
  | [], v => v
  | b :: bs, v => loadRegs (k + 1) bs (v.setIfInBounds k b)

/-- `I` after FX55 and FX65: advanced by x + 1 modulo 65536 when `Q_MEMINC` is on (R183, R184). -/
def State.indexAfter (s : State) (x : Nibble) : Word :=
  if s.quirks.memInc then s.i + BitVec.ofNat 16 (regCount x) else s.i

/-! ### The pixels of a sprite (R161; log 16) -/

/-- Where the pixel of column `px` and row `py` lands: reduced in wrap mode, nowhere in clip mode when
it is beyond the right or the bottom edge. -/
def pixelTarget (mode : DrawMode) (py px : Nat) : Option (Fin 32 × Fin 64) :=
  match mode with
  | .wrap => some (⟨py % 32, Nat.mod_lt _ (by decide)⟩, ⟨px % 64, Nat.mod_lt _ (by decide)⟩)
  | .clip => if h : py < 32 ∧ px < 64 then some (⟨py, h.1⟩, ⟨px, h.2⟩) else none

/-- The pixels that one sprite byte toggles in row `py`, its left edge at column `x0`: bit 7 − c is the
pixel of column `x0 + c`. -/
def rowPixels (mode : DrawMode) (x0 py : Nat) (b : Byte) : List (Fin 32 × Fin 64) :=
  (List.range 8).filterMap fun c =>
    if b.getLsbD (7 - c) then pixelTarget mode py (x0 + c) else none

/-- The pixels that a sprite toggles: one byte a row, downward from row `py`. -/
def spritePixels (mode : DrawMode) (x0 : Nat) : Nat → List Byte → List (Fin 32 × Fin 64)
  | _, [] => []
  | py, b :: bs => rowPixels mode x0 py b ++ spritePixels mode x0 (py + 1) bs

/-- Toggling pixels one after the other; the flag records whether one of them was set when it was
toggled. -/
def togglePixels : List (Fin 32 × Fin 64) → Display × Bool → Display × Bool
  | [], acc => acc
  | (r, c) :: rest, (fb, hit) =>
    togglePixels rest (Display.toggle fb r c, hit || Display.pixel fb r c)

/-- The pixels of `DRW Vx, Vy, n` in this state: the start is `V[x] mod 64`, `V[y] mod 32`, the rows are
the n bytes at `I` (R161). -/
def State.drawPixels (s : State) (x y n : Nibble) : List (Fin 32 × Fin 64) :=
  spritePixels s.quirks.drawMode ((s.reg x).toNat % 64) ((s.reg y).toNat % 32)
    (s.mem.readBytes s.i.toNat n.toNat)

end Sys2Proof.Machine
end

