-- ==== Sys2Proof/Machine/Flags.lean ====
section
/-! DEFINITION. The flag computations of R24, as conditions on unbounded numbers, and writing VF. -/

namespace Sys2Proof.Machine

/-- The value a flag is written with: 0x00 or 0x01, never another (R23, R152 (c)). -/
def flagByte (c : Bool) : Byte := if c then 1 else 0

/-- VF is written as a flag; the callers do it after the result, so that with x = 15 the flag remains
(R24, R152 (b); log 12). -/
def State.setFlag (s : State) (c : Bool) : State := s.setReg vf (flagByte c)

/-- Carry of 8XY4: the unbounded sum is above 255 (R146). -/
def carryFlag (a b : Byte) : Bool := decide (a.toNat + b.toNat > 255)

/-- No borrow of 8XY5 and 8XY7: minuend ≥ subtrahend (R147, R149). -/
def noBorrowFlag (minuend subtrahend : Byte) : Bool := decide (minuend.toNat ≥ subtrahend.toNat)

/-- The bit shifted out to the right: bit 0 (R148). -/
def shiftRightFlag (b : Byte) : Bool := b.getLsbD 0

/-- The bit shifted out to the left: bit 7 (R150). -/
def shiftLeftFlag (b : Byte) : Bool := b.getLsbD 7

/-- FX1E under `Q_ADDI_FLAG`: the unbounded sum passes 0x0FFF (R181; log 23). -/
def indexFlag (i : Word) (b : Byte) : Bool := decide (i.toNat + b.toNat > 0x0FFF)

end Sys2Proof.Machine
end

