-- ==== Sys2Proof/Machine/DisplayOps.lean ====
section
/-! DEFINITION. The display instructions (R160 to R162). -/

namespace Sys2Proof.Machine

/-- 00E0 (R160). -/
def execCls (s : State) : Host.Outcome State Fault Refusal :=
  .next { s with fb := Display.blank }

/-- DXYN (R161): the whole sprite is checked and read, then its pixels are toggled, then VF takes the
collision flag. -/
def execDrw (x y n : Nibble) (s : State) : Host.Outcome State Fault Refusal :=
  match checkRange s.i.toNat n.toNat with
  | some bad => .next (raise .outOfBounds (.drw x y n) bad s)
  | none =>
    let drawn := togglePixels (s.drawPixels x y n) (s.fb, false)
    .next (State.setFlag { s with fb := drawn.1 } drawn.2)

/-- FX29 (R162). -/
def execLdF (x : Nibble) (s : State) : Host.Outcome State Fault Refusal :=
  .next (s.setI (s.glyphAddress (s.lowNibble x)))

end Sys2Proof.Machine
end

