-- ==== Sys2Proof/Machine/IndexMemory.lean ====
section
/-! DEFINITION. The index-register and memory instructions (R180 to R185). -/

namespace Sys2Proof.Machine

/-- ANNN (R180). -/
def execLdI (nnn : Addr12) (s : State) : Host.Outcome State Fault Refusal :=
  .next (s.setI (zext16 nnn))

/-- FX1E (R181): the sum modulo 65536; VF is written only under `Q_ADDI_FLAG`. -/
def execAddI (x : Nibble) (s : State) : Host.Outcome State Fault Refusal :=
  if s.quirks.addIFlag then
    .next ((s.setI (s.i + zext16 (s.reg x))).setFlag (indexFlag s.i (s.reg x)))
  else .next (s.setI (s.i + zext16 (s.reg x)))

/-- FX33 (R182). -/
def execLdB (x : Nibble) (s : State) : Host.Outcome State Fault Refusal :=
  match checkRange s.i.toNat 3 with
  | some bad => .next (raise .outOfBounds (.ldB x) bad s)
  | none => .next (s.store s.i.toNat (bcdDigits (s.reg x)))

/-- FX55 (R183). -/
def execLdMemVx (x : Nibble) (s : State) : Host.Outcome State Fault Refusal :=
  match checkRange s.i.toNat (regCount x) with
  | some bad => .next (raise .outOfBounds (.ldMemVx x) bad s)
  | none => .next ((s.store s.i.toNat (s.dumpBytes x)).setI (s.indexAfter x))

/-- FX65 (R184). -/
def execLdVxMem (x : Nibble) (s : State) : Host.Outcome State Fault Refusal :=
  match checkRange s.i.toNat (regCount x) with
  | some bad => .next (raise .outOfBounds (.ldVxMem x) bad s)
  | none =>
    .next { s with
      v := loadRegs 0 (s.mem.readBytes s.i.toNat (regCount x)) s.v
      i := s.indexAfter x }

end Sys2Proof.Machine
end

