-- ==== Sys2Proof/Machine/Keypad.lean ====
section
/-! DEFINITION. The keypad instructions and the pass of the WaitingForKey state (R170 to R173). -/

namespace Sys2Proof.Machine

/-- EX9E (R170). -/
def execSkp (x : Nibble) (s : State) : Host.Outcome State Fault Refusal :=
  .next (s.skipIf (s.keyDown (s.lowNibble x)))

/-- EXA1 (R171). -/
def execSknp (x : Nibble) (s : State) : Host.Outcome State Fault Refusal :=
  .next (s.skipIf (!s.keyDown (s.lowNibble x)))

/-- FX0A, the instruction itself: the wait begins, `PC` stays A + 2 (R172; log 21). -/
def execLdVxK (x : Nibble) (s : State) : Host.Outcome State Fault Refusal :=
  .next { s with waitX := x, prevKeys := s.keys, rs := .waitingForKey }

/-- The sixteen key numbers, rising. -/
def allKeys : List Nibble := [0, 1, 2, 3, 4, 5, 6, 7, 8, 9, 10, 11, 12, 13, 14, 15]

/-- The keys of a mask, rising. -/
def keysOf (mask : BitVec 16) : List Nibble := allKeys.filter fun k => mask.getLsbD k.toNat

/-- `KEYWAIT_PICK(new)`: a key of `new`, none when `new` = 0. One key alone is reported as it is; which
of several is a free choice (R173, R6; log 4). -/
def pickKey (new : BitVec 16) : Option Nibble :=
  match keysOf new with
  | [] => none
  | [k] => some k
  | k :: l :: rest =>
    some ((k :: l :: rest).getD (Config.keywaitPick new % (k :: l :: rest).length) k)

/-- The keys that are down in this pass's sample and were up in the one before (R173). -/
def State.newKeys (s : State) : BitVec 16 := s.keys &&& ~~~s.prevKeys

/-- The pass of the WaitingForKey state, the keys sampled already (R173).
DEDUCED (log 21): the pass that ends the wait keeps the old `PREV_KEYS`, as the pseudocode of R173 has it;
R43 and D24 speak of every waiting pass. -/
def waitingPass (s : State) : State :=
  match pickKey s.newKeys with
  | some k => { s.setReg s.waitX (k.setWidth 8) with rs := .running }
  | none => { s with prevKeys := s.keys }

end Sys2Proof.Machine
end

