-- ==== Sys2Proof/Machine/RegisterAlu.lean ====
section
/-! DEFINITION. Register load, arithmetic, logic, shift and random instructions (R140 to R153). All
operands are read from the state before the instruction; the flag is written last (R152). -/

namespace Sys2Proof.Machine

/-- 6XNN (R140). -/
def execLdImm (x : Nibble) (nn : Byte) (s : State) : Host.Outcome State Fault Refusal :=
  .next (s.setReg x nn)

/-- 7XNN: the sum modulo 256, no flag (R141; log 13). -/
def execAddImm (x : Nibble) (nn : Byte) (s : State) : Host.Outcome State Fault Refusal :=
  .next (s.setReg x (s.reg x + nn))

/-- 8XY0 (R142). -/
def execLdReg (x y : Nibble) (s : State) : Host.Outcome State Fault Refusal :=
  .next (s.setReg x (s.reg y))

/-- 8XY1 (R143). -/
def execOrReg (x y : Nibble) (s : State) : Host.Outcome State Fault Refusal :=
  .next (s.setReg x (s.reg x ||| s.reg y))

/-- 8XY2 (R144). -/
def execAndReg (x y : Nibble) (s : State) : Host.Outcome State Fault Refusal :=
  .next (s.setReg x (s.reg x &&& s.reg y))

/-- 8XY3 (R145). -/
def execXorReg (x y : Nibble) (s : State) : Host.Outcome State Fault Refusal :=
  .next (s.setReg x (s.reg x ^^^ s.reg y))

/-- 8XY4 (R146). -/
def execAddReg (x y : Nibble) (s : State) : Host.Outcome State Fault Refusal :=
  .next ((s.setReg x (s.reg x + s.reg y)).setFlag (carryFlag (s.reg x) (s.reg y)))

/-- 8XY5 (R147). -/
def execSub (x y : Nibble) (s : State) : Host.Outcome State Fault Refusal :=
  .next ((s.setReg x (s.reg x - s.reg y)).setFlag (noBorrowFlag (s.reg x) (s.reg y)))

/-- 8XY6 (R148). -/
def execShr (x y : Nibble) (s : State) : Host.Outcome State Fault Refusal :=
  .next ((s.setReg x (s.shiftOperand x y >>> 1)).setFlag (shiftRightFlag (s.shiftOperand x y)))

/-- 8XY7 (R149). -/
def execSubn (x y : Nibble) (s : State) : Host.Outcome State Fault Refusal :=
  .next ((s.setReg x (s.reg y - s.reg x)).setFlag (noBorrowFlag (s.reg y) (s.reg x)))

/-- 8XYE (R150). -/
def execShl (x y : Nibble) (s : State) : Host.Outcome State Fault Refusal :=
  .next ((s.setReg x (s.shiftOperand x y <<< 1)).setFlag (shiftLeftFlag (s.shiftOperand x y)))

/-- CXNN: the random byte of this pass, masked (R151). -/
def execRnd (x : Nibble) (nn : Byte) (s : State) : Host.Outcome State Fault Refusal :=
  .next (s.setReg x (s.rnd &&& nn))

end Sys2Proof.Machine
end

