-- ==== Sys2Proof/Machine/TimerOps.lean ====
section
/-! DEFINITION. The timer instructions (R190 to R192). -/

namespace Sys2Proof.Machine

/-- FX07 (R190). -/
def execLdVxDT (x : Nibble) (s : State) : Host.Outcome State Fault Refusal :=
  .next (s.setReg x s.dt)

/-- FX15 (R191). -/
def execLdDTVx (x : Nibble) (s : State) : Host.Outcome State Fault Refusal :=
  .next { s with dt := s.reg x }

/-- FX18 (R192). -/
def execLdSTVx (x : Nibble) (s : State) : Host.Outcome State Fault Refusal :=
  .next { s with st := s.reg x }

end Sys2Proof.Machine
end

