-- ==== Sys2Proof/Machine/Events.lean ====
section
/-! DEFINITION. The events other than the execution of an instruction: Reset, Load, Tick, the beginning
of a Pass, and which event comes next (R45, R220, R240, R244). -/

namespace Sys2Proof.Machine

/-- Reset (R240): every value of R50, the straps as sampled. The events still to come, the count of
free inputs and the implementation's `FONT_BASE` are not the core's to reset. -/
def resetEvent (q : Quirks) (s : State) : State :=
  { State.resetWith q s.mem.fontBase with pending := s.pending, clock := s.clock }

/-- Load (R244), where it is enabled: copied from 0x200 on, or refused when longer than 3584 bytes.
DEDUCED (log 6): a refused Load counts as the one Load. -/
def loadEvent (bytes : List Byte) (s : State) : State :=
  if bytes.length ≤ Config.maxRom then
    { s.store Config.programBase bytes with loadOpen := false }
  else { s with loadOk := false, loadOpen := false }

/-- A timer after `n` Ticks: decremented, floor at 0 (R220). At 0 it stays, whatever `n` is. -/
def countDown (n : Nat) (t : Byte) : Byte := if t = 0 then 0 else BitVec.ofNat 8 (t.toNat - n)

/-- `n` Tick events in a row (R220); `ticks 1` is the Tick event. -/
def ticks (n : Nat) (s : State) : State :=
  { s with dt := countDown n s.dt, st := countDown n s.st }

/-- How many unscripted passes, from pass number `k` on, go by before the next Tick: a free number where
the wait begins, one less from pass to pass, and a new free number after the Tick (R221, log 30). -/
def passesToTick : Nat → Nat
  | 0 => Config.tickGap 0
  | k + 1 =>
    match passesToTick k with
    | 0 => Config.tickGap (k + 1)
    | left + 1 => left

/-- How many Ticks fall just before the unscripted pass number `k`: none, or at least one where a Tick is
due. The free numbers give every order of Passes and Ticks in which both keep occurring (R45), and no
other (the fairness of R221, log 30). -/
def ticksBefore (k : Nat) : Nat := if passesToTick k = 0 then Config.extraTicks k + 1 else 0

/-- A Pass begins: the keys and the random byte are sampled, and Load is no longer enabled (R46, R47,
R244). -/
def beginPass (keys : BitVec 16) (rnd : Byte) (s : State) : State :=
  { s with keys := keys, rnd := rnd, loadOpen := false }

/-- The next event and the state it finds. A pending event comes first. With none pending, a free number
of Ticks has happened and a Pass with free inputs comes: R45 lets any number of Ticks fall between two
passes and any inputs arrive (log 3); Ticks and Passes both keep occurring (R221, log 30). -/
def nextEvent (s : State) : Event × State :=
  match s.pending with
  | e :: rest => (e, { s with pending := rest })
  | [] =>
    (.pass (Config.keysIn s.clock) (Config.rndIn s.clock),
     { ticks (ticksBefore s.clock) s with clock := s.clock + 1 })

end Sys2Proof.Machine
end

