-- ==== Sys2Proof/Machine/Fetch.lean ====
section
/-! DEFINITION. Fetching the instruction word at `PC` (R63, R65), and placing a word there. -/

namespace Sys2Proof.Machine

/-- `MemRead(addr, 2)` of R63: the big-endian word, or the first out-of-range address. -/
def State.fetchWord (s : State) : Except (BitVec 17) Word :=
  match checkRange s.pc.toNat 2 with
  | some bad => .error bad
  | none => .ok (wordOfBytes (s.mem.read s.pc.toNat) (s.mem.read (s.pc.toNat + 1)))

/-- The state in which the next step is a Pass that fetches the given word: the word is stored at `PC`,
the core runs, and no other event is pending. A `PC` that cannot be fetched from is set to the entry
point (log 7). -/
def State.withWordAtPc (s : State) (w : Word) : State :=
  let pc : Word := if s.pc.toNat + 2 ≤ Config.memSize then s.pc else BitVec.ofNat 16 Config.programBase
  { s with
    pc := pc
    mem := s.mem.writeBytes pc.toNat (bytesOfWord w)
    rs := .running
    loadOk := true
    pending := [] }

end Sys2Proof.Machine
end

