-- ==== Sys2Proof/Machine/Pass.lean ====
section
/-! DEFINITION. The Pass event and the effect of every event (R45 to R48). -/

namespace Sys2Proof.Machine

/-- The Pass of the Running state (R46): fetch, advance `PC` by 2, decode, execute. A fetch fault leaves
`PC` at A, an unknown word leaves it at A + 2 (R206). -/
def runningPass (s : State) : Host.Outcome State Fault Refusal :=
  match s.fetchWord with
  | .error bad => .next (takeFault .outOfBounds s.pc 0 bad s)
  | .ok w =>
    match decode w with
    | .error _ => .next (takeFault .unknownOpcode s.pc w 0 (s.setPc (s.pc + 2)))
    | .ok i => exec i (s.setPc (s.pc + 2))

/-- A Pass that has begun, by run state (R46, R47, R48). -/
def runPass (s : State) : Host.Outcome State Fault Refusal :=
  match s.rs with
  | .running => runningPass s
  | .waitingForKey => .next (waitingPass s)
  | .halted => .fault .halted

/-- The effect of an event where it is enabled, and the stop where it is not (R45, R48, R244). -/
def runEvent (e : Event) (s : State) : Host.Outcome State Fault Refusal :=
  match e with
  | .reset q => .next (resetEvent q s)
  | .load bytes => if s.loadOpen then .next (loadEvent bytes s) else .fault .loadNotEnabled
  | .pass keys rnd => if s.loadOk then runPass (beginPass keys rnd s) else .fault .loadRefused
  | .tick => if s.rs = .halted then .fault .halted else .next (ticks 1 s)
  | .frame => .next s

/-- The next event takes place. -/
def runNext (s : State) : Host.Outcome State Fault Refusal := runEvent (nextEvent s).1 (nextEvent s).2

end Sys2Proof.Machine
end

