-- ==== Sys2Proof/Machine/Ports.lean ====
section
/-! DEFINITION. The output ports of the core: functions of the state (R222 to R224). -/

namespace Sys2Proof.Machine

/-- `audio_on`: the audio gate (R223). -/
def State.audioOn (s : State) : Bool := decide (0 < s.st.toNat)

/-- `run_state`: Running 0, WaitingForKey 1, Halted 2 (R34). -/
def State.runStatePort (s : State) : BitVec 2 :=
  match s.rs with
  | .running => 0
  | .waitingForKey => 1
  | .halted => 2

/-- The codes of R200. -/
def ErrKind.code : ErrKind → BitVec 3
  | .none => 0
  | .unknownOpcode => 1
  | .stackOverflow => 2
  | .stackUnderflow => 3
  | .outOfBounds => 4

/-- `err_kind` (R36). -/
def State.errKindPort (s : State) : BitVec 3 := s.err.kind.code
/-- `err_pc` (R36). -/
def State.errPcPort (s : State) : Word := s.err.pc
/-- `err_word` (R36). -/
def State.errWordPort (s : State) : Word := s.err.word
/-- `err_addr` (R36). -/
def State.errAddrPort (s : State) : BitVec 17 := s.err.addr

/-- `load_ok` (R244). -/
def State.loadOkPort (s : State) : Bool := s.loadOk

/-- The display port of rows `rows`, the first row lowest: bit `r*64+c` is `FB[r][c]` (R224). -/
def fbBits : List (BitVec 64) → Nat
  | [] => 0
  | row :: rest => row.toNat + 2 ^ 64 * fbBits rest

/-- `fb`: the display buffer, row-major (R222, R224). -/
def State.fbPort (s : State) : BitVec 2048 := BitVec.ofNat 2048 (fbBits s.fb.toList)

end Sys2Proof.Machine
end

