-- ==== Sys2Proof/Machine/Step.lean ====
section
/-! DEFINITION. One step: the next event of the core (R45). -/

namespace Sys2Proof.Machine

/-- One step of the core. -/
def step : State → Host.Outcome State Fault Refusal := fun s => runNext s

/-- `s` with the instruction of the table word stored where the next step fetches (log 7). -/
def State.withFetchWord (s : State) (nbits w : Nat) : State := s.withWordAtPc (tableWord nbits w)

end Sys2Proof.Machine
end

