-- ==== Sys2Proof/Safety.lean ====
section
/-! DEFINITION. What a good state is: the invariant that every step keeps, and the terms in which
statements speak of what a step leaves alone. -/

namespace Sys2Proof.Machine

/-- The invariant of the core: what holds of every state that a run reaches. -/
structure State.Inv (s : State) : Prop where
  /-- memory is in its canonical form, with the font table below 0x200 (R60, R66) -/
  memory : s.mem.wf = true
  /-- the largest values an instruction can leave in `PC` (R28) -/
  pc : s.pc.toNat ≤ 0x10FE
  /-- a return address is some A + 2 with A a fetchable address, at most 0x1000 (R120) -/
  stack : ∀ k : Fin 16, s.stack[k].toNat ≤ 0x1000
  /-- the core is Halted exactly when an error is recorded (R35, R36, R205) -/
  halted : s.rs = .halted ↔ s.err.kind ≠ .none
  /-- no error: all fields 0 (R36, R50) -/
  noError : s.err.kind = .none → s.err = ErrorRecord.clear
  /-- an out-of-range address is recorded for `outOfBounds` only (R36, R200) -/
  errAddr : if s.err.kind = .outOfBounds then 4096 ≤ s.err.addr.toNat else s.err.addr = 0
  /-- after a refused Load no Pass has happened (R244) -/
  loaded : s.loadOpen = true ∨ s.loadOk = false → s.rs = .running ∧ s.pc = 0x0200

/-- A safe state: the core has not halted on a fatal error (R246: Halted is never a successful end). -/
def State.Live (s : State) : Prop := s.rs ≠ .halted

/-- The core is parked: it runs a jump to itself (R246). -/
def State.Parked (s : State) : Prop :=
  s.rs = .running ∧ ∃ nnn : Addr12, s.fetchWord = .ok (encode (.jp nnn)) ∧ s.pc = zext16 nnn

/-! ### What a step leaves alone -/

/-- Registers other than those named keep their value. -/
def SameRegsBut (named : Nibble → Prop) (s t : State) : Prop := ∀ r, ¬ named r → t.reg r = s.reg r

/-- Every byte of memory outside the `len` bytes from address `first` reads as before. -/
def SameMemoryBut (first len : Nat) (s t : State) : Prop :=
  ∀ a, ¬ (first ≤ a ∧ a < first + len) → t.mem.read a = s.mem.read a

/-- Every byte of memory reads as before. -/
def SameMemory (s t : State) : Prop := ∀ a, t.mem.read a = s.mem.read a

/-- Nothing but the named registers changes: no other register, no byte of memory, and no other part of
the state. -/
def OnlyRegs (named : Nibble → Prop) (s t : State) : Prop :=
  SameRegsBut named s t ∧ SameMemory s t ∧ t = { s with v := t.v }

/-- Nothing but `PC` changes. -/
def OnlyPc (s t : State) : Prop :=
  SameRegsBut (fun _ => False) s t ∧ SameMemory s t ∧ t = { s with pc := t.pc }

/-- Nothing but `I` and the named registers changes. -/
def OnlyIndexAndRegs (named : Nibble → Prop) (s t : State) : Prop :=
  SameRegsBut named s t ∧ SameMemory s t ∧ t = { s with v := t.v, i := t.i }

/-- Nothing changes but `I` and the bytes of memory from address `first` on, `len` of them. -/
def OnlyStores (first len : Nat) (s t : State) : Prop :=
  SameRegsBut (fun _ => False) s t ∧ SameMemoryBut first len s t ∧
    t.mem.fontBase = s.mem.fontBase ∧ t = { s with mem := t.mem, i := t.i }

/-- Nothing changes but the display and VF. -/
def OnlyDraws (s t : State) : Prop :=
  SameRegsBut (· = vf) s t ∧ SameMemory s t ∧ t = { s with v := t.v, fb := t.fb }

/-! ### What an instruction may do, read off the tables of the spec -/

/-- The registers an instruction may write, for a setting of the straps (R21). -/
def writesReg (q : Quirks) (i : Instr) (r : Nibble) : Bool :=
  match i with
  | .ldImm x _ | .addImm x _ | .ldReg x _ | .orReg x _ | .andReg x _ | .xorReg x _ | .rnd x _
  | .ldVxDT x => r == x
  | .addReg x _ | .sub x _ | .shr x _ | .subn x _ | .shl x _ => r == x || r == vf
  | .drw _ _ _ => r == vf
  | .addI _ => q.addIFlag && r == vf
  | .ldVxMem x => decide (r.toNat ≤ x.toNat)
  | .cls | .ret | .jp _ | .call _ | .jpV0 _ | .seImm _ _ | .sneImm _ _ | .seReg _ _ | .sneReg _ _
  | .ldI _ | .skp _ | .sknp _ | .ldVxK _ | .ldDTVx _ | .ldSTVx _ | .ldF _ | .ldB _ | .ldMemVx _ => false

/-- Whether an instruction writes VF as a flag (R24). -/
def writesFlag (q : Quirks) (i : Instr) : Bool :=
  match i with
  | .addReg _ _ | .sub _ _ | .shr _ _ | .subn _ _ | .shl _ _ | .drw _ _ _ => true
  | .addI _ => q.addIFlag
  | .cls | .ret | .jp _ | .call _ | .jpV0 _ | .seImm _ _ | .sneImm _ _ | .seReg _ _ | .sneReg _ _
  | .ldImm _ _ | .addImm _ _ | .ldReg _ _ | .orReg _ _ | .andReg _ _ | .xorReg _ _ | .rnd _ _
  | .ldI _ | .skp _ | .sknp _ | .ldVxDT _ | .ldVxK _ | .ldDTVx _ | .ldSTVx _ | .ldF _ | .ldB _
  | .ldMemVx _ | .ldVxMem _ => false

/-- Whether an instruction may write `I`, for a setting of the straps (R25). -/
def writesIndex (q : Quirks) (i : Instr) : Bool :=
  match i with
  | .ldI _ | .addI _ | .ldF _ => true
  | .ldMemVx _ | .ldVxMem _ => q.memInc
  | .cls | .ret | .jp _ | .call _ | .jpV0 _ | .seImm _ _ | .sneImm _ _ | .seReg _ _ | .sneReg _ _
  | .ldImm _ _ | .addImm _ _ | .ldReg _ _ | .orReg _ _ | .andReg _ _ | .xorReg _ _ | .addReg _ _
  | .sub _ _ | .shr _ _ | .subn _ _ | .shl _ _ | .rnd _ _ | .drw _ _ _ | .skp _ | .sknp _ | .ldVxDT _
  | .ldVxK _ | .ldDTVx _ | .ldSTVx _ | .ldB _ => false

/-- How many bytes from `I` on an instruction writes (R69). -/
def storeLength (i : Instr) : Nat :=
  match i with
  | .ldB _ => 3
  | .ldMemVx x => x.toNat + 1
  | .cls | .ret | .jp _ | .call _ | .jpV0 _ | .seImm _ _ | .sneImm _ _ | .seReg _ _ | .sneReg _ _
  | .ldImm _ _ | .addImm _ _ | .ldReg _ _ | .orReg _ _ | .andReg _ _ | .xorReg _ _ | .addReg _ _
  | .sub _ _ | .shr _ _ | .subn _ _ | .shl _ _ | .rnd _ _ | .ldI _ | .drw _ _ _ | .skp _ | .sknp _
  | .ldVxDT _ | .ldVxK _ | .ldDTVx _ | .ldSTVx _ | .addI _ | .ldF _ | .ldVxMem _ => 0

/-- How many bytes from `I` on an instruction reads or writes (R69). -/
def accessLength (i : Instr) : Nat :=
  match i with
  | .drw _ _ n => n.toNat
  | .ldVxMem x => x.toNat + 1
  | .ldB _ | .ldMemVx _ => storeLength i
  | .cls | .ret | .jp _ | .call _ | .jpV0 _ | .seImm _ _ | .sneImm _ _ | .seReg _ _ | .sneReg _ _
  | .ldImm _ _ | .addImm _ _ | .ldReg _ _ | .orReg _ _ | .andReg _ _ | .xorReg _ _ | .addReg _ _
  | .sub _ _ | .shr _ _ | .subn _ _ | .shl _ _ | .rnd _ _ | .ldI _ | .skp _ | .sknp _ | .ldVxDT _
  | .ldVxK _ | .ldDTVx _ | .ldSTVx _ | .addI _ | .ldF _ => 0

/-- The one execution fault an instruction can have in a state, with its recorded address (R200, R208). -/
def executionFault (i : Instr) (s : State) : Option (ErrKind × Nat) :=
  match i with
  | .call _ => if s.sp.val = 16 then some (.stackOverflow, 0) else none
  | .ret => if s.sp.val = 0 then some (.stackUnderflow, 0) else none
  | .drw _ _ _ | .ldB _ | .ldMemVx _ | .ldVxMem _ =>
    if 0 < accessLength i ∧ 4096 < s.i.toNat + accessLength i then
      some (.outOfBounds, max 4096 s.i.toNat)
    else none
  | .cls | .jp _ | .jpV0 _ | .seImm _ _ | .sneImm _ _ | .seReg _ _ | .sneReg _ _
  | .ldImm _ _ | .addImm _ _ | .ldReg _ _ | .orReg _ _ | .andReg _ _ | .xorReg _ _ | .addReg _ _
  | .sub _ _ | .shr _ _ | .subn _ _ | .shl _ _ | .rnd _ _ | .ldI _ | .skp _ | .sknp _ | .ldVxDT _
  | .ldVxK _ | .ldDTVx _ | .ldSTVx _ | .addI _ | .ldF _ => none

/-- Whether an instruction is a control transfer or a skip (R27). -/
def transfersControl (i : Instr) : Bool :=
  match i with
  | .ret | .jp _ | .call _ | .jpV0 _ | .seImm _ _ | .sneImm _ _ | .seReg _ _ | .sneReg _ _ | .skp _
  | .sknp _ => true
  | .cls | .ldImm _ _ | .addImm _ _ | .ldReg _ _ | .orReg _ _ | .andReg _ _ | .xorReg _ _ | .addReg _ _
  | .sub _ _ | .shr _ _ | .subn _ _ | .shl _ _ | .rnd _ _ | .ldI _ | .drw _ _ _ | .ldVxDT _ | .ldVxK _
  | .ldDTVx _ | .ldSTVx _ | .addI _ | .ldF _ | .ldB _ | .ldMemVx _ | .ldVxMem _ => false

/-! ### A pass, seen from the outside -/

/-- The next event of `s` is a Pass with these inputs, it finds the state `s'`, and it is enabled: the
program was not refused (R244) and the core is in run state `r` (R45). -/
def PassDue (s : State) (keys : BitVec 16) (rnd : Byte) (s' : State) (r : RunState) : Prop :=
  nextEvent s = (.pass keys rnd, s') ∧ s'.loadOk = true ∧ s'.rs = r

/-- The two bytes at `PC` exist and decode to `i` (R63, R65, R100). -/
def DecodesAtPc (s : State) (i : Instr) : Prop :=
  s.pc.toNat + 1 ≤ 4095 ∧
    decodeBytes [s.mem.read s.pc.toNat, s.mem.read (s.pc.toNat + 1)] = .ok (i, [])

/-- The state in which the instruction of a Pass executes: inputs sampled, Load closed, `PC` advanced
(R46). -/
def State.entering (s : State) (keys : BitVec 16) (rnd : Byte) : State :=
  { s with keys := keys, rnd := rnd, loadOpen := false, pc := s.pc + 2 }

/-- A set pixel of the sprite of `DRW Vx, Vy, n` in state `s` lands at row `r`, column `c` of the screen
(R161): sprite row `k` is the byte at `I` + k, its bit 7 − j is the pixel j places to the right. -/
def SpriteCovers (s : State) (x y n : Nibble) (r : Fin 32) (c : Fin 64) : Prop :=
  ∃ k < n.toNat, ∃ j < 8, (s.mem.read (s.i.toNat + k)).getLsbD (7 - j) = true ∧
    match s.quirks.drawMode with
    | .clip => (s.reg y).toNat % 32 + k = r.val ∧ (s.reg x).toNat % 64 + j = c.val
    | .wrap => ((s.reg y).toNat % 32 + k) % 32 = r.val ∧ ((s.reg x).toNat % 64 + j) % 64 = c.val

/-- The instructions executed one after the other, each with `PC` at its entry as the one before left
it; `none` when one of them does not answer a next state that still runs. -/
def execAll : List Instr → State → Option State
  | [], s => some s
  | i :: is, s =>
    match exec i s with
    | .next t => if t.rs = .halted then none else execAll is t
    | _ => none

end Sys2Proof.Machine
end

