-- ==== Sys2Proof/Certificates/Slice0/Obligations.lean ====
section
/-! DEFINITION. The statements for the provers, from the rules of spec/. In each of them `exec i s` is
executed with `PC` = A + 2 already (R46), so `s.pc - 2` is A. -/

open Sys2Proof Sys2Proof.Machine

/-! ## Encoding (30_encoding.md) -/

/-- R91: the fields of a word: four nibbles, the low byte and the low 12 bits, which overlap. -/
def Obligations.FieldsOfAWord : Prop :=
  ∀ w : Word,
    (fieldOp w).toNat = w.toNat / 4096 ∧ (fieldX w).toNat = w.toNat / 256 % 16 ∧
    (fieldY w).toNat = w.toNat / 16 % 16 ∧ (fieldN w).toNat = w.toNat % 16 ∧
    (fieldNN w).toNat = w.toNat % 256 ∧ (fieldNNN w).toNat = w.toNat % 4096 ∧
    (fieldNN w).toNat = (fieldY w).toNat * 16 + (fieldN w).toNat ∧
    (fieldNNN w).toNat = (fieldX w).toNat * 256 + (fieldNN w).toNat

/-- R100, R109: decoding an encoded instruction gives it back, with every operand. -/
def Obligations.DecodeOfEncodeIsInstruction : Prop :=
  ∀ i : Instr, i.wellFormed = true → decode (encode i) = .ok i

/-- R109: an instruction with its fields determines the word it was decoded from. -/
def Obligations.EncodeOfDecodeIsWord : Prop :=
  ∀ (w : Word) (i : Instr), decode w = .ok i → encode i = w

/-- R100, R101: a word decodes exactly when it has the fixed bits of a row of the table, and then to an
instruction of such a row (the patterns of R101 are from general knowledge, log 10). -/
def Obligations.DecoderFollowsOpcodeTable : Prop :=
  ∀ w : Word,
    (∀ i, decode w = .ok i → i.row ∈ opcodeTable ∧ w &&& i.row.mask = i.row.fixed) ∧
    ((∃ i, decode w = .ok i) ↔ ∃ r ∈ opcodeTable, w &&& r.mask = r.fixed)

/-- R100: no word matches two rows, and the table has 34 rows. -/
def Obligations.OpcodeRowsAreDisjoint : Prop :=
  opcodeTable.length = 34 ∧
    opcodeTable.Pairwise fun r q => ∀ w : Word, ¬ (w &&& r.mask = r.fixed ∧ w &&& q.mask = q.fixed)

/-- R108: the unknown words are exactly those of its table (strict decoding is the spec's choice D9, D10). -/
def Obligations.UnknownWordsAreExactlyTheListed : Prop :=
  ∀ w : Word, decode w = .error (.unknownOpcode w) ↔
    (w.toNat / 4096 = 0x0 ∧ w.toNat ≠ 0x00E0 ∧ w.toNat ≠ 0x00EE) ∨
    (w.toNat / 4096 = 0x5 ∧ w.toNat % 16 ≠ 0) ∨
    (w.toNat / 4096 = 0x8 ∧ w.toNat % 16 ∈ [0x8, 0x9, 0xA, 0xB, 0xC, 0xD, 0xF]) ∨
    (w.toNat / 4096 = 0x9 ∧ w.toNat % 16 ≠ 0) ∨
    (w.toNat / 4096 = 0xE ∧ w.toNat % 256 ∉ [0x9E, 0xA1]) ∨
    (w.toNat / 4096 = 0xF ∧
      w.toNat % 256 ∉ [0x07, 0x0A, 0x15, 0x18, 0x1E, 0x29, 0x33, 0x55, 0x65])

/-- R65, R91, R101: some words, byte by byte as memory holds them, and what they decode to (the table of R101
in 30_encoding.md section 3; the words stand in 95_test_vectors.md: D12A, 00E0, 812E, E19E, 5121 in section
2.1, 1200 in S7, 6105 and F129 in S8, F315 in T1, F265 in P4). The patterns are general knowledge (log 10). -/
def Obligations.SampleWordsDecode : Prop :=
  decodeBytes [0xD1, 0x2A] = .ok (.drw 1 2 0xA, []) ∧
  decodeBytes [0x00, 0xE0] = .ok (.cls, []) ∧
  decodeBytes [0x61, 0x05] = .ok (.ldImm 1 5, []) ∧
  decodeBytes [0x12, 0x00] = .ok (.jp 0x200, []) ∧
  decodeBytes [0x81, 0x2E] = .ok (.shl 1 2, []) ∧
  decodeBytes [0xF1, 0x29] = .ok (.ldF 1, []) ∧
  decodeBytes [0xE1, 0x9E] = .ok (.skp 1, []) ∧
  decodeBytes [0xF3, 0x15] = .ok (.ldDTVx 3, []) ∧
  decodeBytes [0xF2, 0x65] = .ok (.ldVxMem 2, []) ∧
  decodeBytes [0x51, 0x21] = .error (.unknownOpcode 0x5121)

/-! ## Reset, Load and the events (10_state.md, 70_reset_and_hazards.md) -/

/-- R50, R240, R241: what the Reset event leaves, in whatever state it comes, for every setting of the
straps. The values other than those of `PC` and `RS` are the spec's decisions D6, D7; `pending` and
`clock` are the model's own (log 3), and so is `loadOpen`, which says that Load is enabled (R244, log 6). -/
def Obligations.ResetEventLeavesResetValues : Prop :=
  ∀ (s : State) (q : Quirks) (rest : List Event), s.pending = .reset q :: rest →
    ∃ t, step s = .next t ∧ t.rs = .running ∧ t.pc = 0x200 ∧ (∀ x, t.reg x = 0) ∧ t.i = 0 ∧
      t.sp = 0 ∧ (∀ k : Fin 16, t.stack[k] = 0) ∧ t.dt = 0 ∧ t.st = 0 ∧
      (∀ r c, Display.pixel t.fb r c = false) ∧ t.waitX = 0 ∧ t.prevKeys = 0 ∧
      t.err = { kind := .none, pc := 0, word := 0, addr := 0 } ∧ t.loadOk = true ∧ t.loadOpen = true ∧
      t.quirks = q ∧
      t.mem.fontBase = s.mem.fontBase ∧
      (∀ d < 16, ∀ k < 5, t.mem.read (s.mem.fontBase + 5 * d + k) = fontBytes.getD (5 * d + k) 0) ∧
      (∀ a < 4096, ¬ (s.mem.fontBase ≤ a ∧ a < s.mem.fontBase + 80) → t.mem.read a = 0) ∧
      t.pending = rest ∧ t.clock = s.clock

/-- R244: a Load between Reset and the first Pass copies up to 3584 bytes to 0x200 and on and writes nothing
else; a longer one is refused with `load_ok` false and changes nothing else of the core. Either closes Load:
`loadOpen` is the model's own field, and that a refused Load counts as the one Load is the model's reading of
'at most once' (DEDUCED, log 6). -/
def Obligations.LoadCopiesOrRefuses : Prop :=
  ∀ (s : State) (bytes : List Byte) (rest : List Event),
    s.pending = .load bytes :: rest → s.loadOpen = true → s.mem.wf = true →
    ∃ t, step s = .next t ∧
      (bytes.length ≤ 3584 →
        (∀ k, ∀ h : k < bytes.length, t.mem.read (0x200 + k) = bytes[k]) ∧
        SameMemoryBut 0x200 bytes.length s t ∧ t.mem.fontBase = s.mem.fontBase ∧
        t = { s with mem := t.mem, loadOpen := false, pending := rest }) ∧
      (3584 < bytes.length → t = { s with loadOk := false, loadOpen := false, pending := rest })

/-- R244: after a refused Load no Pass is taken, and Load is taken at most once and before the first Pass
(the stops are the model's form of 'not enabled', log 6). -/
def Obligations.RefusedLoadStopsPasses : Prop :=
  ∀ (s s' : State) (e : Event), nextEvent s = (e, s') →
    ((∃ k b, e = .pass k b) → s'.loadOk = false → step s = .fault .loadRefused) ∧
    ((∃ bytes, e = .load bytes) → s'.loadOpen = false → step s = .fault .loadNotEnabled) ∧
    (∀ t, (∃ k b, e = .pass k b) ∨ (∃ bytes, e = .load bytes) → step s = .next t → t.loadOpen = false)

/-- R45, R221: which event a step takes. The first pending event; with none pending, a Pass with free inputs
after a free number of Ticks. Ticks keep occurring: from every clock value on there is one at which the Pass
comes after at least one Tick, whatever else the state holds (the event list, the clock and the free inputs
are the model's own, log 3; the fairness is the spec's choice D39, log 30). -/
def Obligations.NextEventIsPendingOrFreePass : Prop :=
  (∀ s : State,
    (∀ e rest, s.pending = e :: rest → nextEvent s = (e, { s with pending := rest })) ∧
    (s.pending = [] → ∃ keys rnd n,
      nextEvent s = (.pass keys rnd,
        { s with dt := BitVec.ofNat 8 (s.dt.toNat - n), st := BitVec.ofNat 8 (s.st.toNat - n),
                 clock := s.clock + 1 }))) ∧
  ∀ k, ∃ j, k ≤ j ∧ ∃ n, 0 < n ∧ ∀ s : State, s.pending = [] → s.clock = j → ∃ keys rnd,
    nextEvent s = (.pass keys rnd,
      { s with dt := BitVec.ofNat 8 (s.dt.toNat - n), st := BitVec.ofNat 8 (s.st.toNat - n), clock := j + 1 })

/-- R46, R26: when the bytes at `PC` decode to `i`, a step is `exec i` with the inputs sampled and `PC`
advanced by 2 before execution. -/
def Obligations.StepExecutesDecodedInstruction : Prop :=
  ∀ (s s' : State) (keys : BitVec 16) (rnd : Byte) (i : Instr),
    PassDue s keys rnd s' .running → DecodesAtPc s' i → step s = exec i (s'.entering keys rnd)

/-- R220: a Tick decrements both timers, floor at 0, and touches nothing else; it is enabled in Running and
in WaitingForKey (D27). -/
def Obligations.TickDecrementsTimers : Prop :=
  ∀ (s : State) (rest : List Event), s.pending = .tick :: rest → s.rs ≠ .halted →
    ∃ t, step s = .next t ∧
      t.dt.toNat = s.dt.toNat - 1 ∧ t.st.toNat = s.st.toNat - 1 ∧
      t = { s with dt := t.dt, st := t.st, pending := rest }

/-- R220 (source property): n Ticks in a row take a timer down by n, to 0 and never below. -/
def Obligations.TicksReachZeroAndStay : Prop :=
  ∀ (n : Nat) (s : State) (rest : List Event),
    s.pending = List.replicate n .tick ++ rest → s.rs ≠ .halted →
    ∃ t, Host.Core.run core n s = .next t ∧ t.dt.toNat = s.dt.toNat - n ∧
      t.st.toNat = s.st.toNat - n ∧ t = { s with dt := t.dt, st := t.st, pending := rest }

/-- R222 to R224, R34, R36, R200: the audio gate follows `ST`, the display port is the buffer in row-major
order, `run_state` and the `err_*` ports show `RS` and `ERR`, `load_ok` shows whether a Load was refused, and
a Frame changes nothing. The ports and their codes are the spec's choices D1, D22 (log 19). -/
def Obligations.PortsShowTheState : Prop :=
  ∀ s : State,
    (s.audioOn = true ↔ 0 < s.st.toNat) ∧
    (∀ (r : Fin 32) (c : Fin 64), s.fbPort.getLsbD (r.val * 64 + c.val) = Display.pixel s.fb r c) ∧
    (s.rs = .running → s.runStatePort = 0) ∧ (s.rs = .waitingForKey → s.runStatePort = 1) ∧
    (s.rs = .halted → s.runStatePort = 2) ∧
    (s.err.kind = .none → s.errKindPort = 0) ∧ (s.err.kind = .unknownOpcode → s.errKindPort = 1) ∧
    (s.err.kind = .stackOverflow → s.errKindPort = 2) ∧
    (s.err.kind = .stackUnderflow → s.errKindPort = 3) ∧
    (s.err.kind = .outOfBounds → s.errKindPort = 4) ∧
    s.errPcPort = s.err.pc ∧ s.errWordPort = s.err.word ∧ s.errAddrPort = s.err.addr ∧
    s.loadOkPort = s.loadOk ∧
    (∀ rest, s.pending = .frame :: rest → step s = .next { s with pending := rest })

/-! ## Invariants and whole-machine rules -/

/-- R50, R66: the state after Reset has the invariant, for every setting of the straps and every legal
`FONT_BASE`. -/
def Obligations.ResetStateHasInvariant : Prop :=
  State.reset.Inv ∧ ∀ q fontBase, fontBase + 80 ≤ 0x200 → (State.resetWith q fontBase).Inv

/-- R28, R29, R35, R36, R60, R120: every step keeps the invariant: memory canonical, `PC` at most 0x10FE,
return addresses at most 0x1000, Halted exactly with an error recorded (the canonical form is the model's
own, log 11). -/
def Obligations.StepKeepsInvariant : Prop :=
  ∀ s t : State, s.Inv → step s = .next t → t.Inv

/-- R35: the transitions of `RS` are exactly these (the edge that ends the wait is the spec's choice D24). -/
def Obligations.RunStateTransitions : Prop :=
  ∀ (s s' t : State) (e : Event), nextEvent s = (e, s') → step s = .next t →
    t.rs = s.rs ∨
    (s.rs = .running ∧ t.rs = .waitingForKey ∧ (∃ k b, e = .pass k b) ∧ ∃ x, DecodesAtPc s' (.ldVxK x)) ∨
    (s.rs = .waitingForKey ∧ t.rs = .running ∧ (∃ k b, e = .pass k b ∧ k &&& ~~~s.prevKeys ≠ 0)) ∨
    (s.rs = .running ∧ t.rs = .halted ∧ (∃ k b, e = .pass k b) ∧ t.err.kind ≠ .none) ∨
    (t.rs = .running ∧ ∃ q, e = .reset q)

/-- R48, R209: in Halted no Pass and no Tick is taken, a Frame and nothing else leaves the state as it is,
and only a Reset leaves Halted (the stop is the model's form of 'not enabled', log 5). -/
def Obligations.HaltedIsLeftByResetOnly : Prop :=
  ∀ (s s' : State) (e : Event), s.Inv → s.rs = .halted → nextEvent s = (e, s') →
    ((∃ k b, e = .pass k b) ∨ e = .tick → step s = .fault .halted) ∧
    (∀ t, step s = .next t → t.rs ≠ .halted → ∃ q, e = .reset q) ∧
    (e = .frame → step s = .next s')

/-- Every instruction answers a next state, in every state (R200: the four errors are next states too). -/
def Obligations.ExecAlwaysAnswersNext : Prop :=
  ∀ (i : Instr) (s : State), ∃ t, exec i s = .next t

/-- R200, R208: an instruction takes its one execution fault exactly when the table says so, and then
changes nothing but `RS` and `ERR` (R207); otherwise it does not halt the core. The record and the absence
of partial effects are the spec's choices D20 to D22 (logs 18, 19). -/
def Obligations.ExecutionFaultsExactly : Prop :=
  ∀ (i : Instr) (s : State),
    (∀ k a, executionFault i s = some (k, a) →
      exec i s = .next { s with
        rs := .halted
        err := { kind := k, pc := s.pc - 2, word := encode i, addr := BitVec.ofNat 17 a } }) ∧
    (∀ t, executionFault i s = none → exec i s = .next t → t.err = s.err ∧ (s.rs ≠ .halted → t.rs ≠ .halted))

/-- R21: an instruction leaves every register alone that the table does not list for it (that no other
instruction writes VF is the spec's choice D12, log 13). -/
def Obligations.OnlyListedRegistersChange : Prop :=
  ∀ (i : Instr) (s t : State), exec i s = .next t → SameRegsBut (fun r => writesReg s.quirks i r = true) s t

/-- R23, R24: an instruction that writes VF as a flag, and does not fault, leaves 0 or 1 in it, also when VF is the
destination (D11, log 12). -/
def Obligations.FlagWritesAreZeroOrOne : Prop :=
  ∀ (i : Instr) (s t : State), writesFlag s.quirks i = true → executionFault i s = none →
    exec i s = .next t → t.reg vf = 0 ∨ t.reg vf = 1

/-- R25: `I` is written by ANNN, FX1E, FX29 and, with `Q_MEMINC` on, FX55 and FX65, and by nothing else. -/
def Obligations.OnlyIndexInstructionsWriteIndex : Prop :=
  ∀ (i : Instr) (s t : State), exec i s = .next t → writesIndex s.quirks i = false → t.i = s.i

/-- R29, R32, R33, R40, R43: only 2NNN and 00EE touch the stack, only FX15 and FX18 write a timer, only 00E0
and DXYN write the display, only FX0A writes the key-wait bookkeeping. -/
def Obligations.EachDeviceHasItsInstructions : Prop :=
  ∀ (i : Instr) (s t : State), exec i s = .next t →
    ((∀ nnn, i ≠ .call nnn) → i ≠ .ret → t.stack = s.stack ∧ t.sp = s.sp) ∧
    ((∀ x, i ≠ .ldDTVx x) → t.dt = s.dt) ∧ ((∀ x, i ≠ .ldSTVx x) → t.st = s.st) ∧
    (i ≠ .cls → (∀ x y n, i ≠ .drw x y n) → t.fb = s.fb) ∧
    ((∀ x, i ≠ .ldVxK x) → t.waitX = s.waitX ∧ t.prevKeys = s.prevKeys)

/-- R38, R42, R44, R51: no instruction writes the straps, the inputs of the pass, `load_ok`, `FONT_BASE` or
the events to come. -/
def Obligations.InstructionsLeaveInputsAndStraps : Prop :=
  ∀ (i : Instr) (s t : State), exec i s = .next t →
    t.quirks = s.quirks ∧ t.keys = s.keys ∧ t.rnd = s.rnd ∧ t.loadOk = s.loadOk ∧
    t.loadOpen = s.loadOpen ∧ t.pending = s.pending ∧ t.clock = s.clock ∧
    t.mem.fontBase = s.mem.fontBase

/-- R69: an instruction writes no byte outside the range the table gives it (all of memory unchanged where
the range is empty, and when the instruction faults, the spec's choice D20, log 18). -/
def Obligations.OnlyStoredBytesChange : Prop :=
  ∀ (i : Instr) (s t : State), s.mem.wf = true → exec i s = .next t →
    SameMemoryBut s.i.toNat (storeLength i) s t ∧ (executionFault i s ≠ none → SameMemory s t)

/-- R26, R27: an instruction that is no control transfer leaves `PC` = A + 2, FX0A (D25, log 21) and a
faulting one included, measured over a whole step. -/
def Obligations.NonControlAdvancesPcByTwo : Prop :=
  ∀ (s s' t : State) (keys : BitVec 16) (rnd : Byte) (i : Instr),
    PassDue s keys rnd s' .running → DecodesAtPc s' i → transfersControl i = false →
    step s = .next t → t.pc = s'.pc + 2

/-! ## Fetch and decode faults (60_exceptions.md) -/

/-- R63, R204, R206: a fetch that would touch an address above 4095 halts the core; `PC` is still A, the
recorded word is 0 and the recorded address the first out-of-range one (D21, D22, log 19). -/
def Obligations.FetchOutOfBoundsHalts : Prop :=
  ∀ (s s' : State) (keys : BitVec 16) (rnd : Byte),
    PassDue s keys rnd s' .running → 4095 < s'.pc.toNat + 1 →
    ∃ t, step s = .next t ∧ t.rs = .halted ∧ t.pc = s'.pc ∧
      t.err.kind = .outOfBounds ∧ t.err.pc = s'.pc ∧ t.err.word = 0 ∧
      t.err.addr.toNat = max 4096 s'.pc.toNat ∧
      t = { s' with rs := .halted, err := t.err, keys := keys, rnd := rnd, loadOpen := false }

/-- R201, R205, R206: a fetched word that matches no instruction halts the core; the record holds A and the
word, and `PC` is A + 2 (D21, D22, log 19). -/
def Obligations.UnknownOpcodeHalts : Prop :=
  ∀ (s s' : State) (keys : BitVec 16) (rnd : Byte) (w : Word),
    PassDue s keys rnd s' .running → s'.pc.toNat + 1 ≤ 4095 →
    w.toNat = (s'.mem.read s'.pc.toNat).toNat * 256 + (s'.mem.read (s'.pc.toNat + 1)).toNat →
    (∀ r ∈ opcodeTable, w &&& r.mask ≠ r.fixed) →
    step s = .next { s' with
      rs := .halted, pc := s'.pc + 2, keys := keys, rnd := rnd, loadOpen := false
      err := { kind := .unknownOpcode, pc := s'.pc, word := w, addr := 0 } }

/-! ## Control flow (40_control_flow.md) -/

/-- R121: `PC` becomes nnn, zero-extended, and is not incremented. -/
def Obligations.JumpSetsPc : Prop :=
  ∀ (nnn : Addr12) (s : State), encode (.jp nnn) = 0x1#4 ++ nnn ∧
    ∃ t, exec (.jp nnn) s = .next t ∧ t.pc.toNat = nnn.toNat ∧ OnlyPc s t

/-- R30, R122, R202: 2NNN pushes the advanced `PC` and jumps while fewer than 16 entries are held; with 16 it
leaves the stack and `PC` alone and halts on StackOverflow. That the pushed value is the advanced `PC` is the
spec's own inference D32 (log 27). -/
def Obligations.CallPushesOrOverflows : Prop :=
  ∀ (nnn : Addr12) (s : State),
    (s.sp.val < 16 → ∃ t, exec (.call nnn) s = .next t ∧ t.pc.toNat = nnn.toNat ∧
      t.sp.val = s.sp.val + 1 ∧
      (∀ k : Fin 16, t.stack[k] = if k.val = s.sp.val then s.pc else s.stack[k]) ∧
      SameMemory s t ∧ t = { s with pc := t.pc, sp := t.sp, stack := t.stack }) ∧
    (s.sp.val = 16 → ∃ t, exec (.call nnn) s = .next t ∧ t.rs = .halted ∧
      t.err.kind = .stackOverflow ∧ t = { s with rs := t.rs, err := t.err })

/-- R31, R120, R203: 00EE pops the top entry into `PC`; with an empty stack it does not load `PC` and halts on
StackUnderflow. That the popped value goes to `PC` is the spec's reading of the name 'return' (G12, log 31). -/
def Obligations.ReturnPopsOrUnderflows : Prop :=
  ∀ s : State,
    (∀ k : Fin 16, s.sp.val = k.val + 1 → ∃ t, exec .ret s = .next t ∧ t.pc = s.stack[k] ∧
      t.sp.val = k.val ∧ SameMemory s t ∧ t = { s with pc := t.pc, sp := t.sp }) ∧
    (s.sp.val = 0 → ∃ t, exec .ret s = .next t ∧ t.rs = .halted ∧
      t.err.kind = .stackUnderflow ∧ t = { s with rs := t.rs, err := t.err })

/-- R122, R120: a return after a call resumes at the instruction after the call, with the stack depth and
every valid entry as before (the pushed value and the stale entries are the spec's choices D32, D36, log 27). -/
def Obligations.ReturnUndoesCall : Prop :=
  ∀ (nnn : Addr12) (s : State), s.sp.val < 16 →
    ∃ t u, exec (.call nnn) s = .next t ∧ exec .ret t = .next u ∧ u.pc = s.pc ∧ u.sp = s.sp ∧
      (∀ k : Fin 16, k.val < s.sp.val → u.stack[k] = s.stack[k]) ∧ u = { s with stack := u.stack }

/-- R30: from an empty stack 16 nested calls succeed whatever their targets, and the 17th overflows. -/
def Obligations.SeventeenthNestedCallOverflows : Prop :=
  ∀ (targets : List Addr12) (last : Addr12) (s : State), s.rs = .running → s.sp.val = 0 →
    targets.length ≤ 16 →
    ∃ t, execAll (targets.map .call) s = some t ∧ t.sp.val = targets.length ∧
      (targets.length = 16 → ∃ u, exec (.call last) t = .next u ∧ u.rs = .halted ∧
        u.err.kind = .stackOverflow ∧ u.sp = t.sp ∧ u.stack = t.stack ∧ u.pc = t.pc)

/-- R123: `PC` becomes nnn plus `V[0]`, or plus the register named by the top nibble of nnn under
`Q_JUMP`; nothing else changes (D14). -/
def Obligations.JumpWithOffset : Prop :=
  ∀ (nnn : Addr12) (s : State), ∃ t, exec (.jpV0 nnn) s = .next t ∧ OnlyPc s t ∧
    (s.quirks.jump = false → t.pc.toNat = nnn.toNat + (s.reg 0).toNat) ∧
    (s.quirks.jump = true → ∀ x : Nibble, x.toNat = nnn.toNat / 256 →
      t.pc.toNat = nnn.toNat + (s.reg x).toNat)

/-- R124 to R127: each of the four skips compares and adds 2 to `PC` when its condition holds. -/
def Obligations.SkipsCompareAndAdvance : Prop :=
  ∀ (x y : Nibble) (nn : Byte) (s : State),
    (∃ t, exec (.seImm x nn) s = .next t ∧ OnlyPc s t ∧ t.pc = if s.reg x = nn then s.pc + 2 else s.pc) ∧
    (∃ t, exec (.sneImm x nn) s = .next t ∧ OnlyPc s t ∧ t.pc = if s.reg x = nn then s.pc else s.pc + 2) ∧
    (∃ t, exec (.seReg x y) s = .next t ∧ OnlyPc s t ∧
      t.pc = if s.reg x = s.reg y then s.pc + 2 else s.pc) ∧
    (∃ t, exec (.sneReg x y) s = .next t ∧ OnlyPc s t ∧
      t.pc = if s.reg x = s.reg y then s.pc else s.pc + 2)

/-- R121, R246: a core parked on a jump to itself stays parked and never halts: a Pass changes nothing but
the sampled inputs. R221: with no event pending, a parked core goes on until both timers have run out, since
Ticks keep occurring (the fairness is the spec's choice D39, log 30); the number of steps is not bounded. -/
def Obligations.ParkedCoreStaysParked : Prop :=
  (∀ (s s' : State) (keys : BitVec 16) (rnd : Byte), PassDue s keys rnd s' .running → s'.Parked →
    ∃ t, step s = .next t ∧ t = { s' with keys := keys, rnd := rnd, loadOpen := false } ∧
      t.Parked ∧ t.Live) ∧
  (∀ s : State, s.Parked → s.loadOk = true → s.pending = [] →
    ∃ n t, Host.Core.run core n s = .next t ∧ t.Parked ∧ t.dt = 0 ∧ t.st = 0 ∧
      SameRegsBut (fun _ => False) s t ∧ SameMemory s t)

/-! ## Registers and arithmetic (41_register_alu.md) -/

/-- R140: 6XNN loads nn into `V[x]`, VF like any register, and changes nothing else. -/
def Obligations.LoadImmediate : Prop :=
  ∀ (x : Nibble) (nn : Byte) (s : State), encode (.ldImm x nn) = 0x6#4 ++ x ++ nn ∧
    ∃ t, exec (.ldImm x nn) s = .next t ∧ t.reg x = nn ∧ OnlyRegs (· = x) s t

/-- R141: 7XNN adds nn modulo 256 and writes no flag (D12). -/
def Obligations.AddImmediateWithoutFlag : Prop :=
  ∀ (x : Nibble) (nn : Byte) (s : State), ∃ t, exec (.addImm x nn) s = .next t ∧
    (t.reg x).toNat = ((s.reg x).toNat + nn.toNat) % 256 ∧ OnlyRegs (· = x) s t

/-- R142 to R145: copy, or, and, exclusive or, bit by bit, without a flag (D12). -/
def Obligations.CopyAndLogic : Prop :=
  ∀ (x y : Nibble) (s : State),
    (∃ t, exec (.ldReg x y) s = .next t ∧ t.reg x = s.reg y ∧ OnlyRegs (· = x) s t) ∧
    (∃ t, exec (.orReg x y) s = .next t ∧ OnlyRegs (· = x) s t ∧
      ∀ k < 8, (t.reg x).getLsbD k = ((s.reg x).getLsbD k || (s.reg y).getLsbD k)) ∧
    (∃ t, exec (.andReg x y) s = .next t ∧ OnlyRegs (· = x) s t ∧
      ∀ k < 8, (t.reg x).getLsbD k = ((s.reg x).getLsbD k && (s.reg y).getLsbD k)) ∧
    (∃ t, exec (.xorReg x y) s = .next t ∧ OnlyRegs (· = x) s t ∧
      ∀ k < 8, (t.reg x).getLsbD k = ((s.reg x).getLsbD k ^^ (s.reg y).getLsbD k))

/-- R146, R152: 8XY4 leaves the sum modulo 256 in `V[x]` and the carry in VF; together they are the
unbounded sum. With x = 15 the flag remains (D11). -/
def Obligations.AddSetsCarry : Prop :=
  ∀ (x y : Nibble) (s : State), ∃ t, exec (.addReg x y) s = .next t ∧
    OnlyRegs (fun r => r = x ∨ r = vf) s t ∧
    t.reg vf = (if 255 < (s.reg x).toNat + (s.reg y).toNat then 1 else 0) ∧
    (x ≠ vf → (t.reg x).toNat + 256 * (t.reg vf).toNat = (s.reg x).toNat + (s.reg y).toNat)

/-- R147, R149, R152: 8XY5 and 8XY7 leave the difference modulo 256 in `V[x]` and the negated borrow in VF,
the minuend being `V[x]` and `V[y]`. With x = 15 the flag remains (D11). -/
def Obligations.SubtractsSetNotBorrow : Prop :=
  ∀ (x y : Nibble) (s : State),
    (∃ t, exec (.sub x y) s = .next t ∧ OnlyRegs (fun r => r = x ∨ r = vf) s t ∧
      t.reg vf = (if (s.reg y).toNat ≤ (s.reg x).toNat then 1 else 0) ∧
      (x ≠ vf → (t.reg x).toNat = if (s.reg y).toNat ≤ (s.reg x).toNat
        then (s.reg x).toNat - (s.reg y).toNat else (s.reg x).toNat + 256 - (s.reg y).toNat)) ∧
    (∃ t, exec (.subn x y) s = .next t ∧ OnlyRegs (fun r => r = x ∨ r = vf) s t ∧
      t.reg vf = (if (s.reg x).toNat ≤ (s.reg y).toNat then 1 else 0) ∧
      (x ≠ vf → (t.reg x).toNat = if (s.reg x).toNat ≤ (s.reg y).toNat
        then (s.reg y).toNat - (s.reg x).toNat else (s.reg y).toNat + 256 - (s.reg x).toNat))

/-- R148, R150, R152: the shifts move `V[x]` under `Q_SHIFT` and `V[y]` without it by one place into `V[x]`,
and VF takes the bit shifted out (D13). With x = 15 the flag remains (D11). -/
def Obligations.ShiftsSetBitShiftedOut : Prop :=
  ∀ (x y : Nibble) (s : State) (b : Byte), b = (if s.quirks.shift = true then s.reg x else s.reg y) →
    (∃ t, exec (.shr x y) s = .next t ∧ OnlyRegs (fun r => r = x ∨ r = vf) s t ∧
      (t.reg vf).toNat = b.toNat % 2 ∧ (x ≠ vf → (t.reg x).toNat = b.toNat / 2)) ∧
    (∃ t, exec (.shl x y) s = .next t ∧ OnlyRegs (fun r => r = x ∨ r = vf) s t ∧
      (t.reg vf).toNat = b.toNat / 128 ∧ (x ≠ vf → (t.reg x).toNat = 2 * b.toNat % 256))

/-- R151: CXNN leaves the random byte of the pass under the mask nn, whatever that byte is: no bit that
is 0 in nn, and every bit of the byte that is 1 in nn. -/
def Obligations.RandomIsMasked : Prop :=
  ∀ (x : Nibble) (nn : Byte) (s : State), ∃ t, exec (.rnd x nn) s = .next t ∧ OnlyRegs (· = x) s t ∧
    ∀ k < 8, (t.reg x).getLsbD k = if nn.getLsbD k = true then s.rnd.getLsbD k else false

/-! ## Display (42_display.md) -/

/-- R160: 00E0 sets every pixel to false and changes nothing else (VF included: D12, log 13). -/
def Obligations.ClearScreen : Prop :=
  ∀ s : State, ∃ t, exec .cls s = .next t ∧ (∀ r c, Display.pixel t.fb r c = false) ∧
    SameRegsBut (fun _ => False) s t ∧ SameMemory s t ∧ t = { s with fb := t.fb }

/-- R161: a draw whose bytes lie in memory (or that has none) toggles exactly the pixels its sprite covers,
in both draw modes, and VF says whether one of them was set before (D18, D19, D38). -/
def Obligations.DrawTogglesCoveredPixels : Prop :=
  ∀ (x y n : Nibble) (s : State), n.toNat = 0 ∨ s.i.toNat + n.toNat ≤ 4096 →
    ∃ t, exec (.drw x y n) s = .next t ∧ OnlyDraws s t ∧
      (∀ r c, (SpriteCovers s x y n r c → Display.pixel t.fb r c = !Display.pixel s.fb r c) ∧
        (¬ SpriteCovers s x y n r c → Display.pixel t.fb r c = Display.pixel s.fb r c)) ∧
      ((∃ r c, SpriteCovers s x y n r c ∧ Display.pixel s.fb r c = true) → t.reg vf = 1) ∧
      ((¬ ∃ r c, SpriteCovers s x y n r c ∧ Display.pixel s.fb r c = true) → t.reg vf = 0)

/-- R161 (source property): drawing the same sprite twice at the same coordinates restores the buffer, and
on a clear buffer the second draw sets VF when the sprite has a pixel on the screen. -/
def Obligations.DrawTwiceRestoresDisplay : Prop :=
  ∀ (x y n : Nibble) (s t u : State), n.toNat = 0 ∨ s.i.toNat + n.toNat ≤ 4096 →
    exec (.drw x y n) s = .next t → t.reg x = s.reg x → t.reg y = s.reg y →
    exec (.drw x y n) t = .next u →
    u.fb = s.fb ∧
      ((∀ r c, Display.pixel s.fb r c = false) → (∃ r c, SpriteCovers s x y n r c) →
        t.reg vf = 0 ∧ u.reg vf = 1)

/-- R162: FX29 points `I` at the glyph of the low nibble of `V[x]` (D23), for every legal `FONT_BASE`. -/
def Obligations.FontAddress : Prop :=
  ∀ (x : Nibble) (s : State), s.mem.fontBase + 80 ≤ 0x200 →
    ∃ t, exec (.ldF x) s = .next t ∧ OnlyIndexAndRegs (fun _ => False) s t ∧
      t.i.toNat = s.mem.fontBase + 5 * ((s.reg x).toNat % 16)

/-! ## Keypad (43_input.md) -/

/-- R170, R171: the key skips test the key of the low nibble of `V[x]` in this pass's sample (D23). -/
def Obligations.KeySkipsTestTheSample : Prop :=
  ∀ (x : Nibble) (s : State),
    (∃ t, exec (.skp x) s = .next t ∧ OnlyPc s t ∧
      t.pc = if s.keys.getLsbD ((s.reg x).toNat % 16) = true then s.pc + 2 else s.pc) ∧
    (∃ t, exec (.sknp x) s = .next t ∧ OnlyPc s t ∧
      t.pc = if s.keys.getLsbD ((s.reg x).toNat % 16) = true then s.pc else s.pc + 2)

/-- R172: FX0A begins the wait, remembers x and the keys now down, and writes no register (D24, D25). -/
def Obligations.KeyWaitBegins : Prop :=
  ∀ (x : Nibble) (s : State), ∃ t, exec (.ldVxK x) s = .next t ∧ t.rs = .waitingForKey ∧
    t.waitX = x ∧ t.prevKeys = s.keys ∧ SameRegsBut (fun _ => False) s t ∧ SameMemory s t ∧
    t = { s with rs := t.rs, waitX := t.waitX, prevKeys := t.prevKeys }

/-- R173: a Pass in WaitingForKey ends the wait exactly when a key is down that was up in the sample before,
reports one such key in `V[WAIT_X]`, and otherwise only refreshes the sample; `PC` stays (D24, D25). That the
Pass which ends the wait keeps the old `PREV_KEYS` is the model's choice (DEDUCED, log 21): the pseudocode of
R173 has it so, R43 and D24 speak of every waiting pass. -/
def Obligations.WaitingPassPollsKeys : Prop :=
  ∀ (s s' : State) (keys : BitVec 16) (rnd : Byte), PassDue s keys rnd s' .waitingForKey →
    ∃ t, step s = .next t ∧
      (keys &&& ~~~s'.prevKeys = 0 →
        t = { s' with keys := keys, rnd := rnd, loadOpen := false, prevKeys := keys }) ∧
      (keys &&& ~~~s'.prevKeys ≠ 0 →
        ∃ k : Fin 16, keys.getLsbD k.val = true ∧ s'.prevKeys.getLsbD k.val = false ∧
          (t.reg s'.waitX).toNat = k.val ∧ SameRegsBut (· = s'.waitX) s' t ∧ SameMemory s' t ∧
          t = { s' with keys := keys, rnd := rnd, loadOpen := false, rs := .running, v := t.v })

/-! ## Index register and memory (44_index_memory.md, 20_memory.md) -/

/-- R180, R181: ANNN sets `I`; FX1E adds `V[x]` to it modulo 65536 and writes VF only under `Q_ADDI_FLAG`,
with the comparison of the unbounded sum with 0x0FFF (D16, D17; that ANNN exists is D41). -/
def Obligations.IndexSetAndAdd : Prop :=
  ∀ (nnn : Addr12) (x : Nibble) (s : State),
    (∃ t, exec (.ldI nnn) s = .next t ∧ OnlyIndexAndRegs (fun _ => False) s t ∧
      t.i.toNat = nnn.toNat) ∧
    (∃ t, exec (.addI x) s = .next t ∧
      OnlyIndexAndRegs (fun r => r = vf ∧ s.quirks.addIFlag = true) s t ∧
      t.i.toNat = (s.i.toNat + (s.reg x).toNat) % 65536 ∧
      (s.quirks.addIFlag = true →
        t.reg vf = if 0x0FFF < s.i.toNat + (s.reg x).toNat then 1 else 0))

/-- R182: FX33 stores the three decimal digits of `V[x]`, hundreds first, at `I`, and nothing else, when the
three bytes lie in memory. -/
def Obligations.BcdStoresDecimalDigits : Prop :=
  ∀ (x : Nibble) (s : State), s.mem.wf = true → s.i.toNat + 2 ≤ 4095 →
    ∃ t, exec (.ldB x) s = .next t ∧ OnlyStores s.i.toNat 3 s t ∧ t.i = s.i ∧
      100 * (t.mem.read s.i.toNat).toNat + 10 * (t.mem.read (s.i.toNat + 1)).toNat +
        (t.mem.read (s.i.toNat + 2)).toNat = (s.reg x).toNat ∧
      (t.mem.read s.i.toNat).toNat < 10 ∧ (t.mem.read (s.i.toNat + 1)).toNat < 10 ∧
      (t.mem.read (s.i.toNat + 2)).toNat < 10

/-- R183: FX55 stores `V[0]` to `V[x]` at `I` and on, when the x + 1 bytes lie in memory, and advances `I` by
x + 1 under `Q_MEMINC` only. -/
def Obligations.DumpStoresRegisters : Prop :=
  ∀ (x : Nibble) (s : State), s.mem.wf = true → s.i.toNat + x.toNat ≤ 4095 →
    ∃ t, exec (.ldMemVx x) s = .next t ∧ OnlyStores s.i.toNat (x.toNat + 1) s t ∧
      (∀ k : Nibble, k.toNat ≤ x.toNat → t.mem.read (s.i.toNat + k.toNat) = s.reg k) ∧
      t.i.toNat = if s.quirks.memInc = true then s.i.toNat + x.toNat + 1 else s.i.toNat

/-- R184: FX65 loads `V[0]` to `V[x]` from the bytes at `I` and on, when they lie in memory, and advances `I`
by x + 1 under `Q_MEMINC` only. -/
def Obligations.LoadReadsRegisters : Prop :=
  ∀ (x : Nibble) (s : State), s.i.toNat + x.toNat ≤ 4095 →
    ∃ t, exec (.ldVxMem x) s = .next t ∧
      OnlyIndexAndRegs (fun r => r.toNat ≤ x.toNat) s t ∧
      (∀ k : Nibble, k.toNat ≤ x.toNat → t.reg k = s.mem.read (s.i.toNat + k.toNat)) ∧
      t.i.toNat = if s.quirks.memInc = true then s.i.toNat + x.toNat + 1 else s.i.toNat

/-- R184 (corner case): a load after a dump at the same `I` gives back the registers that were dumped,
whatever they hold in between. -/
def Obligations.LoadAfterDumpRestoresRegisters : Prop :=
  ∀ (x : Nibble) (s t t' u : State), s.mem.wf = true → s.i.toNat + x.toNat ≤ 4095 →
    exec (.ldMemVx x) s = .next t → t'.mem = t.mem → t'.i = s.i →
    exec (.ldVxMem x) t' = .next u →
    ∀ k : Nibble, k.toNat ≤ x.toNat → u.reg k = s.reg k

/-- R72 (D30): a store is seen by the very next fetch: a word that FX55 stores where `PC` points is the instruction
the next Pass executes. -/
def Obligations.StoreIsSeenByNextFetch : Prop :=
  ∀ (x k l : Nibble) (s t : State) (keys : BitVec 16) (rnd : Byte) (rest : List Event) (i : Instr),
    s.mem.wf = true → s.rs = .running → s.loadOk = true → s.i.toNat + x.toNat ≤ 4095 →
    l.toNat = k.toNat + 1 → l.toNat ≤ x.toNat → s.pc.toNat = s.i.toNat + k.toNat →
    s.pending = .pass keys rnd :: rest → decodeBytes [s.reg k, s.reg l] = .ok (i, []) →
    exec (.ldMemVx x) s = .next t →
    step t = exec i (State.entering { t with pending := rest } keys rnd)

/-- The canonical form makes equal memories equal data: two memories in it that read alike at every address
are the same (the form is the model's own, log 11; what a read returns is that of 20_memory.md). -/
def Obligations.MemoriesThatReadAlikeAreEqual : Prop :=
  ∀ m m' : Memory, m.wf = true → m'.wf = true → m.fontBase = m'.fontBase →
    (∀ a, m.read a = m'.read a) → m = m'

/-! ## Timer instructions (45_timers.md) -/

/-- R190 to R192: FX07 copies `DT` to `V[x]`, FX15 and FX18 copy `V[x]` to `DT` and `ST`, and the audio gate
follows `ST` (that FX07 exists is the spec's choice D41, log 29). -/
def Obligations.TimerInstructionsCopy : Prop :=
  ∀ (x : Nibble) (s : State),
    (∃ t, exec (.ldVxDT x) s = .next t ∧ t.reg x = s.dt ∧ OnlyRegs (· = x) s t) ∧
    (∃ t, exec (.ldDTVx x) s = .next t ∧ t.dt = s.reg x ∧ SameRegsBut (fun _ => False) s t ∧
      SameMemory s t ∧ t = { s with dt := t.dt }) ∧
    (∃ t, exec (.ldSTVx x) s = .next t ∧ t.st = s.reg x ∧ SameRegsBut (fun _ => False) s t ∧
      SameMemory s t ∧ t = { s with st := t.st } ∧ (t.audioOn = true ↔ s.reg x ≠ 0))
end

