-- ==== Sys2Proof/Laws/State.lean ====
section
/-! SUPPORT. One lemma for each field of the state and each update of it. -/

namespace Sys2Proof.Machine

variable (s : State)

/-! ### `setReg` -/

@[simp] theorem setReg_v (x : Nibble) (b : Byte) : (s.setReg x b).v = s.v.set x.toNat b x.isLt := rfl
@[simp] theorem setReg_i (x : Nibble) (b : Byte) : (s.setReg x b).i = s.i := rfl
@[simp] theorem setReg_pc (x : Nibble) (b : Byte) : (s.setReg x b).pc = s.pc := rfl
@[simp] theorem setReg_stack (x : Nibble) (b : Byte) : (s.setReg x b).stack = s.stack := rfl
@[simp] theorem setReg_sp (x : Nibble) (b : Byte) : (s.setReg x b).sp = s.sp := rfl
@[simp] theorem setReg_dt (x : Nibble) (b : Byte) : (s.setReg x b).dt = s.dt := rfl
@[simp] theorem setReg_st (x : Nibble) (b : Byte) : (s.setReg x b).st = s.st := rfl
@[simp] theorem setReg_rs (x : Nibble) (b : Byte) : (s.setReg x b).rs = s.rs := rfl
@[simp] theorem setReg_err (x : Nibble) (b : Byte) : (s.setReg x b).err = s.err := rfl
@[simp] theorem setReg_quirks (x : Nibble) (b : Byte) : (s.setReg x b).quirks = s.quirks := rfl
@[simp] theorem setReg_mem (x : Nibble) (b : Byte) : (s.setReg x b).mem = s.mem := rfl
@[simp] theorem setReg_fb (x : Nibble) (b : Byte) : (s.setReg x b).fb = s.fb := rfl
@[simp] theorem setReg_waitX (x : Nibble) (b : Byte) : (s.setReg x b).waitX = s.waitX := rfl
@[simp] theorem setReg_prevKeys (x : Nibble) (b : Byte) : (s.setReg x b).prevKeys = s.prevKeys := rfl
@[simp] theorem setReg_keys (x : Nibble) (b : Byte) : (s.setReg x b).keys = s.keys := rfl
@[simp] theorem setReg_rnd (x : Nibble) (b : Byte) : (s.setReg x b).rnd = s.rnd := rfl
@[simp] theorem setReg_loadOk (x : Nibble) (b : Byte) : (s.setReg x b).loadOk = s.loadOk := rfl
@[simp] theorem setReg_loadOpen (x : Nibble) (b : Byte) : (s.setReg x b).loadOpen = s.loadOpen := rfl
@[simp] theorem setReg_pending (x : Nibble) (b : Byte) : (s.setReg x b).pending = s.pending := rfl
@[simp] theorem setReg_clock (x : Nibble) (b : Byte) : (s.setReg x b).clock = s.clock := rfl

/-! ### `setFlag` -/

@[simp] theorem setFlag_v (c : Bool) : (s.setFlag c).v = s.v.set 15 (flagByte c) := rfl
@[simp] theorem setFlag_i (c : Bool) : (s.setFlag c).i = s.i := rfl
@[simp] theorem setFlag_pc (c : Bool) : (s.setFlag c).pc = s.pc := rfl
@[simp] theorem setFlag_stack (c : Bool) : (s.setFlag c).stack = s.stack := rfl
@[simp] theorem setFlag_sp (c : Bool) : (s.setFlag c).sp = s.sp := rfl
@[simp] theorem setFlag_dt (c : Bool) : (s.setFlag c).dt = s.dt := rfl
@[simp] theorem setFlag_st (c : Bool) : (s.setFlag c).st = s.st := rfl
@[simp] theorem setFlag_rs (c : Bool) : (s.setFlag c).rs = s.rs := rfl
@[simp] theorem setFlag_err (c : Bool) : (s.setFlag c).err = s.err := rfl
@[simp] theorem setFlag_quirks (c : Bool) : (s.setFlag c).quirks = s.quirks := rfl
@[simp] theorem setFlag_mem (c : Bool) : (s.setFlag c).mem = s.mem := rfl
@[simp] theorem setFlag_fb (c : Bool) : (s.setFlag c).fb = s.fb := rfl
@[simp] theorem setFlag_waitX (c : Bool) : (s.setFlag c).waitX = s.waitX := rfl
@[simp] theorem setFlag_prevKeys (c : Bool) : (s.setFlag c).prevKeys = s.prevKeys := rfl
@[simp] theorem setFlag_keys (c : Bool) : (s.setFlag c).keys = s.keys := rfl
@[simp] theorem setFlag_rnd (c : Bool) : (s.setFlag c).rnd = s.rnd := rfl
@[simp] theorem setFlag_loadOk (c : Bool) : (s.setFlag c).loadOk = s.loadOk := rfl
@[simp] theorem setFlag_loadOpen (c : Bool) : (s.setFlag c).loadOpen = s.loadOpen := rfl
@[simp] theorem setFlag_pending (c : Bool) : (s.setFlag c).pending = s.pending := rfl
@[simp] theorem setFlag_clock (c : Bool) : (s.setFlag c).clock = s.clock := rfl

/-! ### `setI` -/

@[simp] theorem setI_v (a : Word) : (s.setI a).v = s.v := rfl
@[simp] theorem setI_i (a : Word) : (s.setI a).i = a := rfl
@[simp] theorem setI_pc (a : Word) : (s.setI a).pc = s.pc := rfl
@[simp] theorem setI_stack (a : Word) : (s.setI a).stack = s.stack := rfl
@[simp] theorem setI_sp (a : Word) : (s.setI a).sp = s.sp := rfl
@[simp] theorem setI_dt (a : Word) : (s.setI a).dt = s.dt := rfl
@[simp] theorem setI_st (a : Word) : (s.setI a).st = s.st := rfl
@[simp] theorem setI_rs (a : Word) : (s.setI a).rs = s.rs := rfl
@[simp] theorem setI_err (a : Word) : (s.setI a).err = s.err := rfl
@[simp] theorem setI_quirks (a : Word) : (s.setI a).quirks = s.quirks := rfl
@[simp] theorem setI_mem (a : Word) : (s.setI a).mem = s.mem := rfl
@[simp] theorem setI_fb (a : Word) : (s.setI a).fb = s.fb := rfl
@[simp] theorem setI_waitX (a : Word) : (s.setI a).waitX = s.waitX := rfl
@[simp] theorem setI_prevKeys (a : Word) : (s.setI a).prevKeys = s.prevKeys := rfl
@[simp] theorem setI_keys (a : Word) : (s.setI a).keys = s.keys := rfl
@[simp] theorem setI_rnd (a : Word) : (s.setI a).rnd = s.rnd := rfl
@[simp] theorem setI_loadOk (a : Word) : (s.setI a).loadOk = s.loadOk := rfl
@[simp] theorem setI_loadOpen (a : Word) : (s.setI a).loadOpen = s.loadOpen := rfl
@[simp] theorem setI_pending (a : Word) : (s.setI a).pending = s.pending := rfl
@[simp] theorem setI_clock (a : Word) : (s.setI a).clock = s.clock := rfl

/-! ### `setPc` -/

@[simp] theorem setPc_v (a : Word) : (s.setPc a).v = s.v := rfl
@[simp] theorem setPc_i (a : Word) : (s.setPc a).i = s.i := rfl
@[simp] theorem setPc_pc (a : Word) : (s.setPc a).pc = a := rfl
@[simp] theorem setPc_stack (a : Word) : (s.setPc a).stack = s.stack := rfl
@[simp] theorem setPc_sp (a : Word) : (s.setPc a).sp = s.sp := rfl
@[simp] theorem setPc_dt (a : Word) : (s.setPc a).dt = s.dt := rfl
@[simp] theorem setPc_st (a : Word) : (s.setPc a).st = s.st := rfl
@[simp] theorem setPc_rs (a : Word) : (s.setPc a).rs = s.rs := rfl
@[simp] theorem setPc_err (a : Word) : (s.setPc a).err = s.err := rfl
@[simp] theorem setPc_quirks (a : Word) : (s.setPc a).quirks = s.quirks := rfl
@[simp] theorem setPc_mem (a : Word) : (s.setPc a).mem = s.mem := rfl
@[simp] theorem setPc_fb (a : Word) : (s.setPc a).fb = s.fb := rfl
@[simp] theorem setPc_waitX (a : Word) : (s.setPc a).waitX = s.waitX := rfl
@[simp] theorem setPc_prevKeys (a : Word) : (s.setPc a).prevKeys = s.prevKeys := rfl
@[simp] theorem setPc_keys (a : Word) : (s.setPc a).keys = s.keys := rfl
@[simp] theorem setPc_rnd (a : Word) : (s.setPc a).rnd = s.rnd := rfl
@[simp] theorem setPc_loadOk (a : Word) : (s.setPc a).loadOk = s.loadOk := rfl
@[simp] theorem setPc_loadOpen (a : Word) : (s.setPc a).loadOpen = s.loadOpen := rfl
@[simp] theorem setPc_pending (a : Word) : (s.setPc a).pending = s.pending := rfl
@[simp] theorem setPc_clock (a : Word) : (s.setPc a).clock = s.clock := rfl

/-! ### `skipIf` -/

@[simp] theorem skipIf_v (c : Bool) : (s.skipIf c).v = s.v := rfl
@[simp] theorem skipIf_i (c : Bool) : (s.skipIf c).i = s.i := rfl
@[simp] theorem skipIf_pc (c : Bool) : (s.skipIf c).pc = if c then s.pc + 2 else s.pc := rfl
@[simp] theorem skipIf_stack (c : Bool) : (s.skipIf c).stack = s.stack := rfl
@[simp] theorem skipIf_sp (c : Bool) : (s.skipIf c).sp = s.sp := rfl
@[simp] theorem skipIf_dt (c : Bool) : (s.skipIf c).dt = s.dt := rfl
@[simp] theorem skipIf_st (c : Bool) : (s.skipIf c).st = s.st := rfl
@[simp] theorem skipIf_rs (c : Bool) : (s.skipIf c).rs = s.rs := rfl
@[simp] theorem skipIf_err (c : Bool) : (s.skipIf c).err = s.err := rfl
@[simp] theorem skipIf_quirks (c : Bool) : (s.skipIf c).quirks = s.quirks := rfl
@[simp] theorem skipIf_mem (c : Bool) : (s.skipIf c).mem = s.mem := rfl
@[simp] theorem skipIf_fb (c : Bool) : (s.skipIf c).fb = s.fb := rfl
@[simp] theorem skipIf_waitX (c : Bool) : (s.skipIf c).waitX = s.waitX := rfl
@[simp] theorem skipIf_prevKeys (c : Bool) : (s.skipIf c).prevKeys = s.prevKeys := rfl
@[simp] theorem skipIf_keys (c : Bool) : (s.skipIf c).keys = s.keys := rfl
@[simp] theorem skipIf_rnd (c : Bool) : (s.skipIf c).rnd = s.rnd := rfl
@[simp] theorem skipIf_loadOk (c : Bool) : (s.skipIf c).loadOk = s.loadOk := rfl
@[simp] theorem skipIf_loadOpen (c : Bool) : (s.skipIf c).loadOpen = s.loadOpen := rfl
@[simp] theorem skipIf_pending (c : Bool) : (s.skipIf c).pending = s.pending := rfl
@[simp] theorem skipIf_clock (c : Bool) : (s.skipIf c).clock = s.clock := rfl

/-! ### `takeFault` -/

@[simp] theorem takeFault_v (k : ErrKind) (a w : Word) (b : BitVec 17) : (takeFault k a w b s).v = s.v := rfl
@[simp] theorem takeFault_i (k : ErrKind) (a w : Word) (b : BitVec 17) : (takeFault k a w b s).i = s.i := rfl
@[simp] theorem takeFault_pc (k : ErrKind) (a w : Word) (b : BitVec 17) : (takeFault k a w b s).pc = s.pc := rfl
@[simp] theorem takeFault_stack (k : ErrKind) (a w : Word) (b : BitVec 17) : (takeFault k a w b s).stack = s.stack := rfl
@[simp] theorem takeFault_sp (k : ErrKind) (a w : Word) (b : BitVec 17) : (takeFault k a w b s).sp = s.sp := rfl
@[simp] theorem takeFault_dt (k : ErrKind) (a w : Word) (b : BitVec 17) : (takeFault k a w b s).dt = s.dt := rfl
@[simp] theorem takeFault_st (k : ErrKind) (a w : Word) (b : BitVec 17) : (takeFault k a w b s).st = s.st := rfl
@[simp] theorem takeFault_rs (k : ErrKind) (a w : Word) (b : BitVec 17) : (takeFault k a w b s).rs = .halted := rfl
@[simp] theorem takeFault_err (k : ErrKind) (a w : Word) (b : BitVec 17) : (takeFault k a w b s).err = { kind := k, pc := a, word := w, addr := b } := rfl
@[simp] theorem takeFault_quirks (k : ErrKind) (a w : Word) (b : BitVec 17) : (takeFault k a w b s).quirks = s.quirks := rfl
@[simp] theorem takeFault_mem (k : ErrKind) (a w : Word) (b : BitVec 17) : (takeFault k a w b s).mem = s.mem := rfl
@[simp] theorem takeFault_fb (k : ErrKind) (a w : Word) (b : BitVec 17) : (takeFault k a w b s).fb = s.fb := rfl
@[simp] theorem takeFault_waitX (k : ErrKind) (a w : Word) (b : BitVec 17) : (takeFault k a w b s).waitX = s.waitX := rfl
@[simp] theorem takeFault_prevKeys (k : ErrKind) (a w : Word) (b : BitVec 17) : (takeFault k a w b s).prevKeys = s.prevKeys := rfl
@[simp] theorem takeFault_keys (k : ErrKind) (a w : Word) (b : BitVec 17) : (takeFault k a w b s).keys = s.keys := rfl
@[simp] theorem takeFault_rnd (k : ErrKind) (a w : Word) (b : BitVec 17) : (takeFault k a w b s).rnd = s.rnd := rfl
@[simp] theorem takeFault_loadOk (k : ErrKind) (a w : Word) (b : BitVec 17) : (takeFault k a w b s).loadOk = s.loadOk := rfl
@[simp] theorem takeFault_loadOpen (k : ErrKind) (a w : Word) (b : BitVec 17) : (takeFault k a w b s).loadOpen = s.loadOpen := rfl
@[simp] theorem takeFault_pending (k : ErrKind) (a w : Word) (b : BitVec 17) : (takeFault k a w b s).pending = s.pending := rfl
@[simp] theorem takeFault_clock (k : ErrKind) (a w : Word) (b : BitVec 17) : (takeFault k a w b s).clock = s.clock := rfl

/-! ### `raise` -/

@[simp] theorem raise_v (k : ErrKind) (ins : Instr) (b : BitVec 17) : (raise k ins b s).v = s.v := rfl
@[simp] theorem raise_i (k : ErrKind) (ins : Instr) (b : BitVec 17) : (raise k ins b s).i = s.i := rfl
@[simp] theorem raise_pc (k : ErrKind) (ins : Instr) (b : BitVec 17) : (raise k ins b s).pc = s.pc := rfl
@[simp] theorem raise_stack (k : ErrKind) (ins : Instr) (b : BitVec 17) : (raise k ins b s).stack = s.stack := rfl
@[simp] theorem raise_sp (k : ErrKind) (ins : Instr) (b : BitVec 17) : (raise k ins b s).sp = s.sp := rfl
@[simp] theorem raise_dt (k : ErrKind) (ins : Instr) (b : BitVec 17) : (raise k ins b s).dt = s.dt := rfl
@[simp] theorem raise_st (k : ErrKind) (ins : Instr) (b : BitVec 17) : (raise k ins b s).st = s.st := rfl
@[simp] theorem raise_rs (k : ErrKind) (ins : Instr) (b : BitVec 17) : (raise k ins b s).rs = .halted := rfl
@[simp] theorem raise_err (k : ErrKind) (ins : Instr) (b : BitVec 17) : (raise k ins b s).err = { kind := k, pc := s.pc - 2, word := encode ins, addr := b } := rfl
@[simp] theorem raise_quirks (k : ErrKind) (ins : Instr) (b : BitVec 17) : (raise k ins b s).quirks = s.quirks := rfl
@[simp] theorem raise_mem (k : ErrKind) (ins : Instr) (b : BitVec 17) : (raise k ins b s).mem = s.mem := rfl
@[simp] theorem raise_fb (k : ErrKind) (ins : Instr) (b : BitVec 17) : (raise k ins b s).fb = s.fb := rfl
@[simp] theorem raise_waitX (k : ErrKind) (ins : Instr) (b : BitVec 17) : (raise k ins b s).waitX = s.waitX := rfl
@[simp] theorem raise_prevKeys (k : ErrKind) (ins : Instr) (b : BitVec 17) : (raise k ins b s).prevKeys = s.prevKeys := rfl
@[simp] theorem raise_keys (k : ErrKind) (ins : Instr) (b : BitVec 17) : (raise k ins b s).keys = s.keys := rfl
@[simp] theorem raise_rnd (k : ErrKind) (ins : Instr) (b : BitVec 17) : (raise k ins b s).rnd = s.rnd := rfl
@[simp] theorem raise_loadOk (k : ErrKind) (ins : Instr) (b : BitVec 17) : (raise k ins b s).loadOk = s.loadOk := rfl
@[simp] theorem raise_loadOpen (k : ErrKind) (ins : Instr) (b : BitVec 17) : (raise k ins b s).loadOpen = s.loadOpen := rfl
@[simp] theorem raise_pending (k : ErrKind) (ins : Instr) (b : BitVec 17) : (raise k ins b s).pending = s.pending := rfl
@[simp] theorem raise_clock (k : ErrKind) (ins : Instr) (b : BitVec 17) : (raise k ins b s).clock = s.clock := rfl

/-! ### `store` -/

@[simp] theorem store_v (a : Nat) (bs : List Byte) : (s.store a bs).v = s.v := rfl
@[simp] theorem store_i (a : Nat) (bs : List Byte) : (s.store a bs).i = s.i := rfl
@[simp] theorem store_pc (a : Nat) (bs : List Byte) : (s.store a bs).pc = s.pc := rfl
@[simp] theorem store_stack (a : Nat) (bs : List Byte) : (s.store a bs).stack = s.stack := rfl
@[simp] theorem store_sp (a : Nat) (bs : List Byte) : (s.store a bs).sp = s.sp := rfl
@[simp] theorem store_dt (a : Nat) (bs : List Byte) : (s.store a bs).dt = s.dt := rfl
@[simp] theorem store_st (a : Nat) (bs : List Byte) : (s.store a bs).st = s.st := rfl
@[simp] theorem store_rs (a : Nat) (bs : List Byte) : (s.store a bs).rs = s.rs := rfl
@[simp] theorem store_err (a : Nat) (bs : List Byte) : (s.store a bs).err = s.err := rfl
@[simp] theorem store_quirks (a : Nat) (bs : List Byte) : (s.store a bs).quirks = s.quirks := rfl
@[simp] theorem store_mem (a : Nat) (bs : List Byte) : (s.store a bs).mem = s.mem.writeBytes a bs := rfl
@[simp] theorem store_fb (a : Nat) (bs : List Byte) : (s.store a bs).fb = s.fb := rfl
@[simp] theorem store_waitX (a : Nat) (bs : List Byte) : (s.store a bs).waitX = s.waitX := rfl
@[simp] theorem store_prevKeys (a : Nat) (bs : List Byte) : (s.store a bs).prevKeys = s.prevKeys := rfl
@[simp] theorem store_keys (a : Nat) (bs : List Byte) : (s.store a bs).keys = s.keys := rfl
@[simp] theorem store_rnd (a : Nat) (bs : List Byte) : (s.store a bs).rnd = s.rnd := rfl
@[simp] theorem store_loadOk (a : Nat) (bs : List Byte) : (s.store a bs).loadOk = s.loadOk := rfl
@[simp] theorem store_loadOpen (a : Nat) (bs : List Byte) : (s.store a bs).loadOpen = s.loadOpen := rfl
@[simp] theorem store_pending (a : Nat) (bs : List Byte) : (s.store a bs).pending = s.pending := rfl
@[simp] theorem store_clock (a : Nat) (bs : List Byte) : (s.store a bs).clock = s.clock := rfl

/-! ### `ticks` -/

@[simp] theorem ticks_v (n : Nat) : (ticks n s).v = s.v := rfl
@[simp] theorem ticks_i (n : Nat) : (ticks n s).i = s.i := rfl
@[simp] theorem ticks_pc (n : Nat) : (ticks n s).pc = s.pc := rfl
@[simp] theorem ticks_stack (n : Nat) : (ticks n s).stack = s.stack := rfl
@[simp] theorem ticks_sp (n : Nat) : (ticks n s).sp = s.sp := rfl
@[simp] theorem ticks_dt (n : Nat) : (ticks n s).dt = countDown n s.dt := rfl
@[simp] theorem ticks_st (n : Nat) : (ticks n s).st = countDown n s.st := rfl
@[simp] theorem ticks_rs (n : Nat) : (ticks n s).rs = s.rs := rfl
@[simp] theorem ticks_err (n : Nat) : (ticks n s).err = s.err := rfl
@[simp] theorem ticks_quirks (n : Nat) : (ticks n s).quirks = s.quirks := rfl
@[simp] theorem ticks_mem (n : Nat) : (ticks n s).mem = s.mem := rfl
@[simp] theorem ticks_fb (n : Nat) : (ticks n s).fb = s.fb := rfl
@[simp] theorem ticks_waitX (n : Nat) : (ticks n s).waitX = s.waitX := rfl
@[simp] theorem ticks_prevKeys (n : Nat) : (ticks n s).prevKeys = s.prevKeys := rfl
@[simp] theorem ticks_keys (n : Nat) : (ticks n s).keys = s.keys := rfl
@[simp] theorem ticks_rnd (n : Nat) : (ticks n s).rnd = s.rnd := rfl
@[simp] theorem ticks_loadOk (n : Nat) : (ticks n s).loadOk = s.loadOk := rfl
@[simp] theorem ticks_loadOpen (n : Nat) : (ticks n s).loadOpen = s.loadOpen := rfl
@[simp] theorem ticks_pending (n : Nat) : (ticks n s).pending = s.pending := rfl
@[simp] theorem ticks_clock (n : Nat) : (ticks n s).clock = s.clock := rfl

/-! ### `beginPass` -/

@[simp] theorem beginPass_v (k : BitVec 16) (b : Byte) : (beginPass k b s).v = s.v := rfl
@[simp] theorem beginPass_i (k : BitVec 16) (b : Byte) : (beginPass k b s).i = s.i := rfl
@[simp] theorem beginPass_pc (k : BitVec 16) (b : Byte) : (beginPass k b s).pc = s.pc := rfl
@[simp] theorem beginPass_stack (k : BitVec 16) (b : Byte) : (beginPass k b s).stack = s.stack := rfl
@[simp] theorem beginPass_sp (k : BitVec 16) (b : Byte) : (beginPass k b s).sp = s.sp := rfl
@[simp] theorem beginPass_dt (k : BitVec 16) (b : Byte) : (beginPass k b s).dt = s.dt := rfl
@[simp] theorem beginPass_st (k : BitVec 16) (b : Byte) : (beginPass k b s).st = s.st := rfl
@[simp] theorem beginPass_rs (k : BitVec 16) (b : Byte) : (beginPass k b s).rs = s.rs := rfl
@[simp] theorem beginPass_err (k : BitVec 16) (b : Byte) : (beginPass k b s).err = s.err := rfl
@[simp] theorem beginPass_quirks (k : BitVec 16) (b : Byte) : (beginPass k b s).quirks = s.quirks := rfl
@[simp] theorem beginPass_mem (k : BitVec 16) (b : Byte) : (beginPass k b s).mem = s.mem := rfl
@[simp] theorem beginPass_fb (k : BitVec 16) (b : Byte) : (beginPass k b s).fb = s.fb := rfl
@[simp] theorem beginPass_waitX (k : BitVec 16) (b : Byte) : (beginPass k b s).waitX = s.waitX := rfl
@[simp] theorem beginPass_prevKeys (k : BitVec 16) (b : Byte) : (beginPass k b s).prevKeys = s.prevKeys := rfl
@[simp] theorem beginPass_keys (k : BitVec 16) (b : Byte) : (beginPass k b s).keys = k := rfl
@[simp] theorem beginPass_rnd (k : BitVec 16) (b : Byte) : (beginPass k b s).rnd = b := rfl
@[simp] theorem beginPass_loadOk (k : BitVec 16) (b : Byte) : (beginPass k b s).loadOk = s.loadOk := rfl
@[simp] theorem beginPass_loadOpen (k : BitVec 16) (b : Byte) : (beginPass k b s).loadOpen = false := rfl
@[simp] theorem beginPass_pending (k : BitVec 16) (b : Byte) : (beginPass k b s).pending = s.pending := rfl
@[simp] theorem beginPass_clock (k : BitVec 16) (b : Byte) : (beginPass k b s).clock = s.clock := rfl

end Sys2Proof.Machine
end

