-- ==== Sys2Proof/Laws/Memory.lean ====
section
/-! SUPPORT. Memory: reading after writing, and the canonical form that every write keeps. -/

namespace Sys2Proof.Machine

/-! ### The list of cells -/

/-- An entry of a canonical list, taken apart. -/
theorem canonicalFrom_cons {fb lo a : Nat} {v : Byte} {rest : List Host.Cell} :
    canonicalFrom fb lo ((a, v) :: rest) = true ↔
      lo ≤ a ∧ a < Config.memSize ∧ v ≠ Memory.resetByte fb a ∧ canonicalFrom fb (a + 1) rest = true := by
  simp [canonicalFrom, and_assoc]

/-- A lower starting point is as good. -/
theorem canonicalFrom_mono {fb lo lo' : Nat} (hle : lo' ≤ lo) :
    ∀ {cs : List Host.Cell}, canonicalFrom fb lo cs = true → canonicalFrom fb lo' cs = true
  | [], _ => rfl
  | (a, v) :: rest, h => by
    rw [canonicalFrom_cons] at h ⊢
    exact ⟨hle.trans h.1, h.2⟩

/-- An address below the starting point is not listed. -/
theorem lookupCell_below {fb lo b : Nat} (hb : b < lo) :
    ∀ {cs : List Host.Cell}, canonicalFrom fb lo cs = true → lookupCell b cs = none
  | [], _ => rfl
  | (a, v) :: rest, h => by
    rw [canonicalFrom_cons] at h
    have hne : b ≠ a := by omega
    simp only [lookupCell, if_neg hne]
    exact lookupCell_below (by omega) h.2.2.2

/-- Reading after setting one address of a canonical list. -/
theorem lookupCell_setCell (fb a : Nat) (v : Byte) (b : Nat) :
    ∀ {lo : Nat} {cs : List Host.Cell}, canonicalFrom fb lo cs = true →
      (lookupCell b (setCell (Memory.resetByte fb a) a v cs)).getD (Memory.resetByte fb b) =
        if b = a then v else (lookupCell b cs).getD (Memory.resetByte fb b)
  | _, [], _ => by
    by_cases hv : v = Memory.resetByte fb a <;> by_cases hb : b = a <;>
      simp_all [setCell, lookupCell]
  | lo, (c, u) :: rest, h => by
    rw [canonicalFrom_cons] at h
    obtain ⟨-, -, -, hrest⟩ := h
    rcases Nat.lt_trichotomy a c with hac | hac | hac
    · -- inserted before, or left out
      have hbelow : lookupCell a rest = none := lookupCell_below (by omega) hrest
      by_cases hv : v = Memory.resetByte fb a <;> by_cases hb : b = a <;>
        simp_all [setCell, lookupCell, Nat.ne_of_lt hac]
    · -- replaced, or removed
      subst hac
      have hbelow : lookupCell a rest = none := lookupCell_below (by omega) hrest
      by_cases hv : v = Memory.resetByte fb a <;> by_cases hb : b = a <;>
        simp_all [setCell, lookupCell]
    · -- further down
      have ih := lookupCell_setCell fb a v b hrest
      have h1 : ¬ a < c := by omega
      have h2 : a ≠ c := by omega
      simp only [setCell, if_neg h1, if_neg h2, lookupCell]
      by_cases hbc : b = c
      · have : b ≠ a := by omega
        simp [hbc, h2.symm]
      · simp only [if_neg hbc, ih]

/-- Setting an address in range keeps the list canonical. -/
theorem canonicalFrom_setCell {fb a : Nat} (v : Byte) (ha : a < Config.memSize) :
    ∀ {lo : Nat} {cs : List Host.Cell}, lo ≤ a → canonicalFrom fb lo cs = true →
      canonicalFrom fb lo (setCell (Memory.resetByte fb a) a v cs) = true
  | lo, [], hlo, _ => by
    by_cases hv : v = Memory.resetByte fb a <;> simp [setCell, hv, canonicalFrom, hlo, ha]
  | lo, (c, u) :: rest, hlo, h => by
    have h' := canonicalFrom_cons.mp h
    rcases Nat.lt_trichotomy a c with hac | hac | hac
    · by_cases hv : v = Memory.resetByte fb a
      · simpa [setCell, hac, hv] using h
      · simp only [setCell, if_pos hac, if_neg hv]
        exact canonicalFrom_cons.mpr
          ⟨hlo, ha, hv, canonicalFrom_cons.mpr ⟨hac, h'.2⟩⟩
    · subst hac
      by_cases hv : v = Memory.resetByte fb a
      · simpa [setCell, hv] using canonicalFrom_mono (by omega) h'.2.2.2
      · simp only [setCell, lt_irrefl, if_false, if_true, if_neg hv]
        exact canonicalFrom_cons.mpr ⟨hlo, ha, hv, h'.2.2.2⟩
    · have h1 : ¬ a < c := by omega
      have h2 : a ≠ c := by omega
      simp only [setCell, if_neg h1, if_neg h2]
      exact canonicalFrom_cons.mpr
        ⟨h'.1, h'.2.1, h'.2.2.1, canonicalFrom_setCell v ha (by omega) h'.2.2.2⟩

/-! ### Reading and writing (R62, R64) -/

@[simp] theorem write_fontBase (m : Memory) (a : Nat) (v : Byte) :
    (m.write a v).fontBase = m.fontBase := rfl

/-- The two halves of the canonical form. -/
theorem Memory.wf_iff {m : Memory} :
    m.wf = true ↔ m.fontBase + 80 ≤ 0x200 ∧ canonicalFrom m.fontBase 0 m.cells = true := by
  simp [Memory.wf, wellFormedFontBase, Config.fontSize, Config.programBase]

/-- A read after a write of one byte: the written value there, the old value elsewhere. -/
theorem read_write {m : Memory} (hm : m.wf = true) (a : Nat) (v : Byte) (b : Nat) :
    (m.write a v).read b = if b = a then v else m.read b :=
  lookupCell_setCell m.fontBase a v b (Memory.wf_iff.mp hm).2

/-- A write in range keeps the canonical form. -/
theorem wf_write {m : Memory} (hm : m.wf = true) {a : Nat} (ha : a < 4096) (v : Byte) :
    (m.write a v).wf = true := by
  rw [Memory.wf_iff] at hm ⊢
  exact ⟨hm.1, canonicalFrom_setCell v ha (Nat.zero_le a) hm.2⟩

/-! ### Several bytes (R69) -/

@[simp] theorem writeBytes_fontBase (m : Memory) (a : Nat) (vs : List Byte) :
    (m.writeBytes a vs).fontBase = m.fontBase := by
  induction vs generalizing m a with
  | nil => rfl
  | cons v vs ih => simp [Memory.writeBytes, ih]

/-- Writing consecutive bytes in range keeps the canonical form. -/
theorem wf_writeBytes {m : Memory} (hm : m.wf = true) {a : Nat} {vs : List Byte}
    (ha : a + vs.length ≤ 4096) : (m.writeBytes a vs).wf = true := by
  induction vs generalizing m a with
  | nil => exact hm
  | cons v vs ih =>
    simp only [List.length_cons] at ha
    exact ih (wf_write hm (by omega) v) (by omega)

/-- A read after writing consecutive bytes: the byte written there, the old value elsewhere. -/
theorem read_writeBytes {m : Memory} (hm : m.wf = true) {a : Nat} {vs : List Byte}
    (ha : a + vs.length ≤ 4096) (b : Nat) :
    (m.writeBytes a vs).read b =
      if h : a ≤ b ∧ b < a + vs.length then vs[b - a] else m.read b := by
  induction vs generalizing m a with
  | nil =>
    have : ¬ (a ≤ b ∧ b < a + ([] : List Byte).length) := by simp
    rw [dif_neg this]; rfl
  | cons v vs ih =>
    simp only [List.length_cons] at ha ⊢
    rw [Memory.writeBytes, ih (wf_write hm (by omega) v) (by omega), read_write hm]
    by_cases hb : b = a
    · subst hb
      have h1 : ¬ (b + 1 ≤ b ∧ b < b + 1 + vs.length) := by omega
      have h2 : b ≤ b ∧ b < b + (vs.length + 1) := by omega
      simp [h2]
    · by_cases hin : a + 1 ≤ b ∧ b < a + 1 + vs.length
      · have h2 : a ≤ b ∧ b < a + (vs.length + 1) := by omega
        rw [dif_pos hin, dif_pos h2]
        have h3 : b - a = (b - (a + 1)) + 1 := by omega
        simp only [h3, List.getElem_cons_succ]
      · have h2 : ¬ (a ≤ b ∧ b < a + (vs.length + 1)) := by omega
        rw [dif_neg hin, dif_neg h2, if_neg hb]

/-- Outside the written bytes a read is as before. -/
theorem read_writeBytes_outside {m : Memory} (hm : m.wf = true) {a : Nat} {vs : List Byte}
    (ha : a + vs.length ≤ 4096) {b : Nat} (hb : ¬ (a ≤ b ∧ b < a + vs.length)) :
    (m.writeBytes a vs).read b = m.read b := by
  rw [read_writeBytes hm ha, dif_neg hb]

@[simp] theorem readBytes_length (m : Memory) (a n : Nat) : (m.readBytes a n).length = n := by
  induction n generalizing a with
  | zero => rfl
  | succ n ih => simp [Memory.readBytes, ih]

@[simp] theorem readBytes_getElem (m : Memory) (a n k : Nat) (h : k < (m.readBytes a n).length) :
    (m.readBytes a n)[k] = m.read (a + k) := by
  induction n generalizing a k with
  | zero => simp [Memory.readBytes] at h
  | succ n ih =>
    cases k with
    | zero => rfl
    | succ k =>
      simp only [Memory.readBytes, List.getElem_cons_succ]
      rw [ih]
      congr 1
      omega

/-! ### Reset (R50, R66, R241) -/

/-- Memory after Reset, for a legal `FONT_BASE`, is canonical. -/
theorem wf_reset {fb : Nat} (h : fb + 80 ≤ 0x200) : Memory.wf { fontBase := fb, cells := [] } = true :=
  Memory.wf_iff.mpr ⟨h, rfl⟩

end Sys2Proof.Machine
end

