-- ==== Sys2Proof/Laws/Display.lean ====
section
/-! SUPPORT. The display: toggling pixels, and which pixels a sprite toggles (R161). -/

namespace Sys2Proof.Machine

/-! ### Pixels -/

@[simp] theorem pixel_toggle (fb : Display) (r r' : Fin 32) (c c' : Fin 64) :
    Display.pixel (Display.toggle fb r c) r' c' =
      (Display.pixel fb r' c' ^^ decide (r' = r ∧ c' = c)) := by
  unfold Display.pixel Display.toggle
  by_cases hr : r' = r
  · subst hr
    simp [Fin.ext_iff, eq_comm]
  · have : r.val ≠ r'.val := fun h => hr (Fin.ext h.symm)
    simp [this, hr]

@[simp] theorem pixel_blank (r : Fin 32) (c : Fin 64) : Display.pixel Display.blank r c = false := by
  simp [Display.pixel, Display.blank]

/-- Two displays with the same pixels are the same. -/
theorem display_ext {fb fb' : Display} (h : ∀ r c, Display.pixel fb r c = Display.pixel fb' r c) :
    fb = fb' := by
  apply Vector.ext
  intro k hk
  apply BitVec.eq_of_getLsbD_eq
  intro c hc
  exact h ⟨k, hk⟩ ⟨c, hc⟩

/-- Toggling a list of distinct pixels: each of them changes, the others do not, and the flag says
whether one of them was set before. -/
theorem togglePixels_spec {ps : List (Fin 32 × Fin 64)} (hps : ps.Nodup) (fb : Display) (hit : Bool) :
    (∀ r c, Display.pixel (togglePixels ps (fb, hit)).1 r c =
      (Display.pixel fb r c ^^ decide ((r, c) ∈ ps))) ∧
    (togglePixels ps (fb, hit)).2 = (hit || ps.any fun p => Display.pixel fb p.1 p.2) := by
  induction ps generalizing fb hit with
  | nil => simp [togglePixels]
  | cons p ps ih =>
    obtain ⟨r0, c0⟩ := p
    rw [List.nodup_cons] at hps
    obtain ⟨ih1, ih2⟩ := ih hps.2 (Display.toggle fb r0 c0) (hit || Display.pixel fb r0 c0)
    refine ⟨fun r c => ?_, ?_⟩
    · rw [togglePixels, ih1, pixel_toggle]
      by_cases h : r = r0 ∧ c = c0
      · obtain ⟨rfl, rfl⟩ := h
        simp [hps.1]
      · have : (r, c) ≠ (r0, c0) := fun e => h ⟨congrArg Prod.fst e, congrArg Prod.snd e⟩
        simp [h, this]
    · rw [togglePixels, ih2, List.any_cons, Bool.or_assoc]
      have hsame : ∀ p ∈ ps, Display.pixel (Display.toggle fb r0 c0) p.1 p.2 =
          Display.pixel fb p.1 p.2 := by
        rintro ⟨r, c⟩ hp
        have : ¬ (r = r0 ∧ c = c0) := fun h => hps.1 (h.1 ▸ h.2 ▸ hp)
        simp [this]
      congr 2
      rw [Bool.eq_iff_iff, List.any_eq_true, List.any_eq_true]
      exact exists_congr fun p => and_congr_right fun hp => by rw [hsame p hp]

/-! ### The pixels of a sprite -/

/-- Where a pixel lands, in words: its row and column, reduced in wrap mode, inside the screen in clip
mode. -/
theorem pixelTarget_eq_some {mode : DrawMode} {py px : Nat} {r : Fin 32} {c : Fin 64} :
    pixelTarget mode py px = some (r, c) ↔
      match mode with
      | .wrap => py % 32 = r.val ∧ px % 64 = c.val
      | .clip => py = r.val ∧ px = c.val := by
  cases mode
  · by_cases h : py < 32 ∧ px < 64
    · simp [pixelTarget, h, Fin.ext_iff]
    · have : ¬ (py = r.val ∧ px = c.val) := by omega
      simp [pixelTarget, h, this]
  · simp [pixelTarget, Fin.ext_iff]

/-- The row of a target determines the row it came from, over 32 consecutive rows. -/
theorem pixelTarget_row_inj {mode : DrawMode} {a b px px' : Nat} {r : Fin 32} {c c' : Fin 64}
    (ha : pixelTarget mode a px = some (r, c)) (hb : pixelTarget mode b px' = some (r, c'))
    (hab : a ≤ b) (hlt : b < a + 32) : a = b := by
  rw [pixelTarget_eq_some] at ha hb
  cases mode <;> simp only at ha hb <;> omega

/-- The column of a target determines the column it came from, over 64 consecutive columns. -/
theorem pixelTarget_col_inj {mode : DrawMode} {py a b : Nat} {p : Fin 32 × Fin 64}
    (ha : pixelTarget mode py a = some p) (hb : pixelTarget mode py b = some p)
    (hab : a ≤ b) (hlt : b < a + 64) : a = b := by
  obtain ⟨r, c⟩ := p
  rw [pixelTarget_eq_some] at ha hb
  cases mode <;> simp only at ha hb <;> omega

theorem mem_rowPixels {mode : DrawMode} {x0 py : Nat} {b : Byte} {p : Fin 32 × Fin 64} :
    p ∈ rowPixels mode x0 py b ↔
      ∃ j < 8, b.getLsbD (7 - j) = true ∧ pixelTarget mode py (x0 + j) = some p := by
  simp [rowPixels, List.mem_filterMap]

theorem mem_spritePixels {mode : DrawMode} {x0 py : Nat} {bs : List Byte} {p : Fin 32 × Fin 64} :
    p ∈ spritePixels mode x0 py bs ↔
      ∃ k, ∃ h : k < bs.length, ∃ j < 8,
        bs[k].getLsbD (7 - j) = true ∧ pixelTarget mode (py + k) (x0 + j) = some p := by
  induction bs generalizing py with
  | nil => simp [spritePixels]
  | cons b bs ih =>
    rw [spritePixels, List.mem_append, mem_rowPixels, ih]
    constructor
    · rintro (⟨j, hj, hb, ht⟩ | ⟨k, hk, j, hj, hb, ht⟩)
      · exact ⟨0, by simp, j, hj, hb, ht⟩
      · exact ⟨k + 1, by simpa using hk, j, hj, by simpa using hb,
          by rw [← ht]; congr 1; omega⟩
    · rintro ⟨k, hk, j, hj, hb, ht⟩
      cases k with
      | zero => exact .inl ⟨j, hj, hb, ht⟩
      | succ k =>
        exact .inr ⟨k, by simpa using hk, j, hj, by simpa using hb,
          by rw [← ht]; congr 1; omega⟩

theorem nodup_rowPixels (mode : DrawMode) (x0 py : Nat) (b : Byte) :
    (rowPixels mode x0 py b).Nodup := by
  unfold rowPixels List.Nodup
  rw [List.pairwise_filterMap]
  refine List.Pairwise.imp_of_mem ?_ (List.pairwise_lt_range (n := 8))
  intro a a' ha ha' hlt p hp q hq hpq
  subst hpq
  simp only [List.mem_range] at ha ha'
  by_cases h1 : b.getLsbD (7 - a) <;> by_cases h2 : b.getLsbD (7 - a') <;> simp_all
  have := pixelTarget_col_inj hp hq (by omega) (by omega)
  omega

/-- Within one draw no pixel is toggled twice, since a sprite is at most 15 rows high (R161). -/
theorem nodup_spritePixels (mode : DrawMode) (x0 py : Nat) (bs : List Byte) (hlen : bs.length ≤ 32) :
    (spritePixels mode x0 py bs).Nodup := by
  induction bs generalizing py with
  | nil => simp [spritePixels]
  | cons b bs ih =>
    simp only [List.length_cons] at hlen
    rw [spritePixels, List.nodup_append]
    refine ⟨nodup_rowPixels .., ih (py + 1) (by omega), ?_⟩
    intro p hp q hq hpq
    subst hpq
    obtain ⟨j, -, -, ht⟩ := mem_rowPixels.mp hp
    obtain ⟨k, hk, j', -, -, ht'⟩ := mem_spritePixels.mp hq
    obtain ⟨r, c⟩ := p
    have := pixelTarget_row_inj ht ht' (by omega) (by omega)
    omega

end Sys2Proof.Machine
end

