-- ==== Sys2Proof/Laws/Encoding.lean ====
section
/-! SUPPORT. The fields of the words that the formats build (R91, R92), through the numbers they spell. -/

namespace Sys2Proof

/-! ### Words and fields as numbers -/

theorem toNat_append_add {m n : Nat} (a : BitVec m) (b : BitVec n) :
    (a ++ b).toNat = a.toNat * 2 ^ n + b.toNat := by
  rw [BitVec.toNat_append, ← Nat.shiftLeft_add_eq_or_of_lt b.isLt, Nat.shiftLeft_eq]

theorem toNat_wordNNN (op : Nibble) (nnn : Addr12) :
    (wordNNN op nnn).toNat = op.toNat * 4096 + nnn.toNat :=
  toNat_append_add op nnn

theorem toNat_wordXNN (op x : Nibble) (nn : Byte) :
    (wordXNN op x nn).toNat = op.toNat * 4096 + x.toNat * 256 + nn.toNat := by
  have h := toNat_append_add (op ++ x) nn
  rw [toNat_append_add op x] at h
  exact h.trans (by omega)

theorem toNat_wordXYN (op x y n : Nibble) :
    (wordXYN op x y n).toNat = op.toNat * 4096 + x.toNat * 256 + y.toNat * 16 + n.toNat := by
  have h := toNat_append_add (op ++ x ++ y) n
  rw [toNat_append_add (op ++ x) y, toNat_append_add op x] at h
  exact h.trans (by omega)

theorem toNat_fieldOp (w : Word) : (fieldOp w).toNat = w.toNat / 4096 := by
  have := w.isLt
  simp only [fieldOp, BitVec.extractLsb'_toNat, Nat.shiftRight_eq_div_pow]
  omega

theorem toNat_fieldX (w : Word) : (fieldX w).toNat = w.toNat / 256 % 16 := by
  simp only [fieldX, BitVec.extractLsb'_toNat, Nat.shiftRight_eq_div_pow]

theorem toNat_fieldY (w : Word) : (fieldY w).toNat = w.toNat / 16 % 16 := by
  simp only [fieldY, BitVec.extractLsb'_toNat, Nat.shiftRight_eq_div_pow]

theorem toNat_fieldN (w : Word) : (fieldN w).toNat = w.toNat % 16 := by
  simp only [fieldN, BitVec.extractLsb'_toNat, Nat.shiftRight_eq_div_pow]
  omega

theorem toNat_fieldNN (w : Word) : (fieldNN w).toNat = w.toNat % 256 := by
  simp only [fieldNN, BitVec.extractLsb'_toNat, Nat.shiftRight_eq_div_pow]
  omega

theorem toNat_fieldNNN (w : Word) : (fieldNNN w).toNat = w.toNat % 4096 := by
  simp only [fieldNNN, BitVec.extractLsb'_toNat, Nat.shiftRight_eq_div_pow]
  omega

/-! ### The fields of each format -/

section
variable (op x y n : Nibble) (nn : Byte) (nnn : Addr12)

@[simp] theorem fieldOp_wordNNN : fieldOp (wordNNN op nnn) = op := by
  apply BitVec.eq_of_toNat_eq
  rw [toNat_fieldOp, toNat_wordNNN]; omega
@[simp] theorem fieldNNN_wordNNN : fieldNNN (wordNNN op nnn) = nnn := by
  apply BitVec.eq_of_toNat_eq
  rw [toNat_fieldNNN, toNat_wordNNN]; omega
@[simp] theorem fieldOp_wordXNN : fieldOp (wordXNN op x nn) = op := by
  apply BitVec.eq_of_toNat_eq
  rw [toNat_fieldOp, toNat_wordXNN]; omega
@[simp] theorem fieldX_wordXNN : fieldX (wordXNN op x nn) = x := by
  apply BitVec.eq_of_toNat_eq
  rw [toNat_fieldX, toNat_wordXNN]; omega
@[simp] theorem fieldNN_wordXNN : fieldNN (wordXNN op x nn) = nn := by
  apply BitVec.eq_of_toNat_eq
  rw [toNat_fieldNN, toNat_wordXNN]; omega
@[simp] theorem fieldOp_wordXYN : fieldOp (wordXYN op x y n) = op := by
  apply BitVec.eq_of_toNat_eq
  rw [toNat_fieldOp, toNat_wordXYN]; omega
@[simp] theorem fieldX_wordXYN : fieldX (wordXYN op x y n) = x := by
  apply BitVec.eq_of_toNat_eq
  rw [toNat_fieldX, toNat_wordXYN]; omega
@[simp] theorem fieldY_wordXYN : fieldY (wordXYN op x y n) = y := by
  apply BitVec.eq_of_toNat_eq
  rw [toNat_fieldY, toNat_wordXYN]; omega
@[simp] theorem fieldN_wordXYN : fieldN (wordXYN op x y n) = n := by
  apply BitVec.eq_of_toNat_eq
  rw [toNat_fieldN, toNat_wordXYN]; omega
end

/-! ### A word is what its fields spell -/

theorem wordNNN_fields (w : Word) : wordNNN (fieldOp w) (fieldNNN w) = w := by
  apply BitVec.eq_of_toNat_eq
  rw [toNat_wordNNN, toNat_fieldOp, toNat_fieldNNN]; omega

theorem wordXNN_fields (w : Word) : wordXNN (fieldOp w) (fieldX w) (fieldNN w) = w := by
  apply BitVec.eq_of_toNat_eq
  rw [toNat_wordXNN, toNat_fieldOp, toNat_fieldX, toNat_fieldNN]; omega

theorem wordXYN_fields (w : Word) :
    wordXYN (fieldOp w) (fieldX w) (fieldY w) (fieldN w) = w := by
  apply BitVec.eq_of_toNat_eq
  rw [toNat_wordXYN, toNat_fieldOp, toNat_fieldX, toNat_fieldY, toNat_fieldN]; omega

/-! ### Words under a mask, field by field (R92) -/

theorem wordNNN_and (op op' : Nibble) (nnn nnn' : Addr12) :
    wordNNN op nnn &&& wordNNN op' nnn' = wordNNN (op &&& op') (nnn &&& nnn') :=
  BitVec.and_append

theorem wordXNN_and (op x op' x' : Nibble) (nn nn' : Byte) :
    wordXNN op x nn &&& wordXNN op' x' nn' = wordXNN (op &&& op') (x &&& x') (nn &&& nn') := by
  have h := BitVec.and_append (x₁ := op ++ x) (x₂ := op' ++ x') (y₁ := nn) (y₂ := nn')
  rw [BitVec.and_append (x₁ := op)] at h
  exact h

theorem wordXYN_and (op x y n op' x' y' n' : Nibble) :
    wordXYN op x y n &&& wordXYN op' x' y' n' =
      wordXYN (op &&& op') (x &&& x') (y &&& y') (n &&& n') := by
  have h := BitVec.and_append (x₁ := op ++ x ++ y) (x₂ := op' ++ x' ++ y') (y₁ := n) (y₂ := n')
  rw [BitVec.and_append (x₁ := op ++ x), BitVec.and_append (x₁ := op)] at h
  exact h

/-! ### The decoder by opcode class (R100) -/

/-- A nibble is one of sixteen. -/
theorem nibble_cases : ∀ o : Nibble, o = 0x0#4 ∨ o = 0x1#4 ∨ o = 0x2#4 ∨ o = 0x3#4 ∨ o = 0x4#4 ∨ o = 0x5#4 ∨ o = 0x6#4 ∨ o = 0x7#4 ∨
    o = 0x8#4 ∨ o = 0x9#4 ∨ o = 0xA#4 ∨ o = 0xB#4 ∨ o = 0xC#4 ∨ o = 0xD#4 ∨ o = 0xE#4 ∨ o = 0xF#4 := by
  decide

/-- What the decoder answers for each opcode class. -/
theorem decode_cases (w : Word) :
    (fieldOp w = 0x0#4 ∧ decode w =
      decodeClass0 w) ∨
    (fieldOp w = 0x1#4 ∧ decode w =
      .ok (.jp (fieldNNN w))) ∨
    (fieldOp w = 0x2#4 ∧ decode w =
      .ok (.call (fieldNNN w))) ∨
    (fieldOp w = 0x3#4 ∧ decode w =
      .ok (.seImm (fieldX w) (fieldNN w))) ∨
    (fieldOp w = 0x4#4 ∧ decode w =
      .ok (.sneImm (fieldX w) (fieldNN w))) ∨
    (fieldOp w = 0x5#4 ∧ decode w =
      if fieldN w = 0x0#4 then .ok (.seReg (fieldX w) (fieldY w)) else .error (.unknownOpcode w)) ∨
    (fieldOp w = 0x6#4 ∧ decode w =
      .ok (.ldImm (fieldX w) (fieldNN w))) ∨
    (fieldOp w = 0x7#4 ∧ decode w =
      .ok (.addImm (fieldX w) (fieldNN w))) ∨
    (fieldOp w = 0x8#4 ∧ decode w =
      decodeClass8 w) ∨
    (fieldOp w = 0x9#4 ∧ decode w =
      if fieldN w = 0x0#4 then .ok (.sneReg (fieldX w) (fieldY w)) else .error (.unknownOpcode w)) ∨
    (fieldOp w = 0xA#4 ∧ decode w =
      .ok (.ldI (fieldNNN w))) ∨
    (fieldOp w = 0xB#4 ∧ decode w =
      .ok (.jpV0 (fieldNNN w))) ∨
    (fieldOp w = 0xC#4 ∧ decode w =
      .ok (.rnd (fieldX w) (fieldNN w))) ∨
    (fieldOp w = 0xD#4 ∧ decode w =
      .ok (.drw (fieldX w) (fieldY w) (fieldN w))) ∨
    (fieldOp w = 0xE#4 ∧ decode w =
      decodeClassE w) ∨
    (fieldOp w = 0xF#4 ∧ decode w =
      decodeClassF w) := by
  rcases nibble_cases (fieldOp w) with h | h | h | h | h | h | h | h | h | h | h | h | h | h | h | h <;>
    simp [decode, h]

/-! ### Bytes and words (R65) -/

theorem toNat_wordOfBytes (hi lo : Byte) :
    (wordOfBytes hi lo).toNat = hi.toNat * 256 + lo.toNat :=
  toNat_append_add hi lo

/-- The two bytes of a word, put together again, are the word. -/
theorem wordOfBytes_bytesOfWord (w : Word) :
    wordOfBytes (w.extractLsb' 8 8) (w.extractLsb' 0 8) = w := by
  apply BitVec.eq_of_toNat_eq
  have := w.isLt
  rw [toNat_wordOfBytes]
  simp only [BitVec.extractLsb'_toNat, Nat.shiftRight_eq_div_pow]
  omega

end Sys2Proof
end

