-- ==== Sys2Proof/Laws/Registers.lean ====
section
/-! SUPPORT. Reading registers after an update, and the value of a flag. -/

namespace Sys2Proof.Machine

@[simp] theorem reg_setReg (s : State) (x r : Nibble) (b : Byte) :
    (s.setReg x b).reg r = if r = x then b else s.reg r := by
  simp only [State.reg, State.setReg, Vector.getElem_set, BitVec.toNat_inj, eq_comm]

@[simp] theorem reg_setFlag (s : State) (c : Bool) (r : Nibble) :
    (s.setFlag c).reg r = if r = vf then flagByte c else s.reg r :=
  reg_setReg s vf r (flagByte c)

/-- Any update that keeps `v` keeps every register. -/
theorem reg_of_v_eq {s t : State} (h : t.v = s.v) (r : Nibble) : t.reg r = s.reg r := by
  simp only [State.reg, h]

@[simp] theorem reg_setI (s : State) (a : Word) (r : Nibble) : (s.setI a).reg r = s.reg r := rfl
@[simp] theorem reg_setPc (s : State) (a : Word) (r : Nibble) : (s.setPc a).reg r = s.reg r := rfl
@[simp] theorem reg_skipIf (s : State) (c : Bool) (r : Nibble) : (s.skipIf c).reg r = s.reg r := rfl
@[simp] theorem reg_takeFault (s : State) (k : ErrKind) (a w : Word) (b : BitVec 17) (r : Nibble) :
    (takeFault k a w b s).reg r = s.reg r := rfl
@[simp] theorem reg_raise (s : State) (k : ErrKind) (i : Instr) (b : BitVec 17) (r : Nibble) :
    (raise k i b s).reg r = s.reg r := rfl
@[simp] theorem reg_store (s : State) (a : Nat) (bs : List Byte) (r : Nibble) :
    (s.store a bs).reg r = s.reg r := rfl

/-- A flag byte is 0 or 1. -/
theorem flagByte_cases (c : Bool) : flagByte c = 0 ∨ flagByte c = 1 := by
  cases c <;> simp [flagByte]

@[simp] theorem flagByte_eq_one {c : Bool} : flagByte c = 1 ↔ c = true := by
  cases c <;> simp [flagByte]

@[simp] theorem flagByte_eq_zero {c : Bool} : flagByte c = 0 ↔ c = false := by
  cases c <;> simp [flagByte]

end Sys2Proof.Machine
end

