-- ==== Sys2Proof/Laws/Ops.lean ====
section
/-! SUPPORT. One lemma for each shared operation that says everything it can do. -/

namespace Sys2Proof.Machine

/-! ### The call stack (R30, R31) -/

/-- A push fails exactly with 16 entries. -/
theorem push_eq_none {s : State} {a : Word} : s.push a = none ↔ s.sp.val = 16 := by
  unfold State.push
  split <;> simp <;> omega

/-- What a successful push does. -/
theorem push_eq_some {s t : State} {a : Word} (h : s.push a = some t) :
    ∃ hlt : s.sp.val < 16,
      t = { s with stack := s.stack.set s.sp.val a hlt, sp := ⟨s.sp.val + 1, by omega⟩ } := by
  unfold State.push at h
  split at h
  · exact ⟨‹_›, (Option.some.inj h).symm⟩
  · cases h

/-- A pop fails exactly with no entry. -/
theorem pop_eq_none {s : State} : s.pop = none ↔ s.sp.val = 0 := by
  unfold State.pop
  split <;> simp <;> omega

/-- What a successful pop does. -/
theorem pop_eq_some {s t : State} {a : Word} (h : s.pop = some (a, t)) :
    ∃ hpos : 0 < s.sp.val,
      a = s.stack[s.sp.val - 1]'(by omega) ∧ t = { s with sp := ⟨s.sp.val - 1, by omega⟩ } := by
  unfold State.pop at h
  split at h
  · obtain ⟨h1, h2⟩ := Prod.mk.inj (Option.some.inj h)
    exact ⟨‹_›, h1.symm, h2.symm⟩
  · cases h

/-! ### The range check (R62, R63) -/

theorem checkRange_eq_none {first len : Nat} :
    checkRange first len = none ↔ len = 0 ∨ first + len ≤ 4096 := by
  unfold checkRange
  split <;> simp_all [Config.memSize] <;> omega

theorem checkRange_eq_some {first len : Nat} {bad : BitVec 17} :
    checkRange first len = some bad ↔
      0 < len ∧ 4096 < first + len ∧ bad = BitVec.ofNat 17 (max 4096 first) := by
  unfold checkRange
  split <;> simp_all [Config.memSize, eq_comm]

/-- The recorded address of a range that starts at a 16-bit address fits its 17 bits. -/
theorem toNat_badAddress (a : Word) : (BitVec.ofNat 17 (max 4096 a.toNat)).toNat = max 4096 a.toNat := by
  have := a.isLt
  simp only [BitVec.toNat_ofNat]
  omega

/-! ### The register block of FX55 and FX65 -/

theorem dumpBytes_length (s : State) (x : Nibble) : (s.dumpBytes x).length = x.toNat + 1 := by
  have := x.isLt
  simp only [State.dumpBytes, regCount, List.length_take, Vector.length_toList]
  omega

theorem dumpBytes_getElem (s : State) (x k : Nibble) (h : k.toNat < (s.dumpBytes x).length) :
    (s.dumpBytes x)[k.toNat] = s.reg k := by
  simp only [State.dumpBytes, State.reg, List.getElem_take, Vector.getElem_toList]

/-- The registers after loading a list of bytes from register number `k` on. -/
theorem loadRegs_getElem (bs : List Byte) (k : Nat) (v : Vector Byte 16) (r : Nat) (hr : r < 16) :
    (loadRegs k bs v)[r] = if h : k ≤ r ∧ r < k + bs.length then bs[r - k] else v[r] := by
  induction bs generalizing k v with
  | nil =>
    have : ¬ (k ≤ r ∧ r < k + ([] : List Byte).length) := by simp
    rw [dif_neg this]; rfl
  | cons b bs ih =>
    rw [loadRegs, ih]
    by_cases hk : k = r
    · subst hk
      simp
    · by_cases hin : k + 1 ≤ r ∧ r < k + 1 + bs.length
      · have h2 : k ≤ r ∧ r < k + (b :: bs).length := by
          simp only [List.length_cons]; omega
        rw [dif_pos hin, dif_pos h2]
        have h3 : r - k = (r - (k + 1)) + 1 := by omega
        simp only [h3, List.getElem_cons_succ]
      · have h2 : ¬ (k ≤ r ∧ r < k + (b :: bs).length) := by
          simp only [List.length_cons]; omega
        rw [dif_neg hin, dif_neg h2]
        simp [hk]

/-- `I` after FX55 and FX65, when the bytes moved lie in memory: no wrap happens (R183, R184). -/
theorem toNat_indexAfter (s : State) (x : Nibble) (h : s.i.toNat + x.toNat ≤ 4095) :
    (s.indexAfter x).toNat =
      if s.quirks.memInc = true then s.i.toNat + x.toNat + 1 else s.i.toNat := by
  unfold State.indexAfter regCount
  split
  · rw [BitVec.toNat_add, BitVec.toNat_ofNat]; omega
  · rfl

/-! ### Numbers -/

/-- `zext16` of a field of at most 16 bits keeps its value. -/
theorem toNat_zext16 {n : Nat} (h : n ≤ 16) (v : BitVec n) : (zext16 v).toNat = v.toNat := by
  have := Nat.pow_le_pow_right (n := 2) (by decide) h
  have := v.isLt
  rw [zext16, BitVec.toNat_setWidth]
  exact Nat.mod_eq_of_lt (by omega)

/-- A timer after `n` Ticks, as one formula. -/
theorem countDown_eq (n : Nat) (t : Byte) : countDown n t = BitVec.ofNat 8 (t.toNat - n) := by
  unfold countDown
  split
  · simp_all
  · rfl

/-- A timer after `n` Ticks, as a number. -/
theorem toNat_countDown (n : Nat) (t : Byte) : (countDown n t).toNat = t.toNat - n := by
  have := t.isLt
  rw [countDown_eq, BitVec.toNat_ofNat]
  omega

/-! ### The key choice (R173) -/

theorem mem_keysOf {mask : BitVec 16} {k : Nibble} : k ∈ keysOf mask ↔ mask.getLsbD k.toNat = true := by
  have : ∀ k : Nibble, k ∈ allKeys := by decide
  simp [keysOf, this k]

/-- The reported key is a key of the mask. -/
theorem pickKey_mem {mask : BitVec 16} {k : Nibble} (h : pickKey mask = some k) :
    mask.getLsbD k.toNat = true := by
  rw [← mem_keysOf]
  unfold pickKey at h
  split at h
  · cases h
  · simp_all
  · rename_i heq
    rw [heq]
    obtain rfl := Option.some.inj h
    rw [List.getD_eq_getElem _ _ (Nat.mod_lt _ (by simp))]
    exact List.getElem_mem _

/-- No key is reported exactly for the empty mask. -/
theorem pickKey_eq_none {mask : BitVec 16} : pickKey mask = none ↔ mask = 0 := by
  have hnone : pickKey mask = none ↔ keysOf mask = [] := by
    unfold pickKey
    split <;> simp_all
  rw [hnone]
  constructor
  · intro h
    apply BitVec.eq_of_getLsbD_eq
    intro k hk
    have : (BitVec.ofNat 4 k) ∉ keysOf mask := by simp [h]
    rw [mem_keysOf] at this
    have hk' : (BitVec.ofNat 4 k).toNat = k := by simp [BitVec.toNat_ofNat]; omega
    simpa [hk'] using this
  · rintro rfl
    simp [keysOf]

end Sys2Proof.Machine
end

