-- ==== Sys2Proof/Laws/Exec.lean ====
section
/-! SUPPORT. What the instructions that can fault do: one lemma each, the fault and the effect. The other
meanings answer one next state and are their own equations. -/

namespace Sys2Proof.Machine

/-- 00EE (R120): StackUnderflow, or the top entry in `PC` and one entry fewer. -/
theorem execRet_cases (s : State) :
    (s.sp.val = 0 ∧ execRet s = .next (raise .stackUnderflow .ret 0 s)) ∨
    ∃ hpos : 0 < s.sp.val, execRet s = .next { s with
      pc := s.stack[s.sp.val - 1]'(by omega), sp := ⟨s.sp.val - 1, by omega⟩ } := by
  unfold execRet
  cases hp : s.pop with
  | none => exact .inl ⟨pop_eq_none.mp hp, rfl⟩
  | some p =>
    obtain ⟨a, s'⟩ := p
    obtain ⟨hpos, rfl, rfl⟩ := pop_eq_some hp
    exact .inr ⟨hpos, rfl⟩

/-- 2NNN (R122): StackOverflow, or the advanced `PC` pushed and the jump made. -/
theorem execCall_cases (nnn : Addr12) (s : State) :
    (s.sp.val = 16 ∧ execCall nnn s = .next (raise .stackOverflow (.call nnn) 0 s)) ∨
    ∃ hlt : s.sp.val < 16, execCall nnn s = .next { s with
      pc := zext16 nnn, stack := s.stack.set s.sp.val s.pc hlt, sp := ⟨s.sp.val + 1, by omega⟩ } := by
  unfold execCall
  cases hp : s.push s.pc with
  | none => exact .inl ⟨push_eq_none.mp hp, rfl⟩
  | some s' =>
    obtain ⟨hlt, rfl⟩ := push_eq_some hp
    exact .inr ⟨hlt, rfl⟩

/-- DXYN (R161): the bounds fault, or the sprite's pixels toggled and VF written. -/
theorem execDrw_cases (x y n : Nibble) (s : State) :
    (0 < n.toNat ∧ 4096 < s.i.toNat + n.toNat ∧ execDrw x y n s =
      .next (raise .outOfBounds (.drw x y n) (BitVec.ofNat 17 (max 4096 s.i.toNat)) s)) ∨
    ((n.toNat = 0 ∨ s.i.toNat + n.toNat ≤ 4096) ∧ execDrw x y n s =
      .next (State.setFlag { s with fb := (togglePixels (s.drawPixels x y n) (s.fb, false)).1 }
        (togglePixels (s.drawPixels x y n) (s.fb, false)).2)) := by
  unfold execDrw
  cases hr : checkRange s.i.toNat n.toNat with
  | none => exact .inr ⟨checkRange_eq_none.mp hr, rfl⟩
  | some bad =>
    obtain ⟨h1, h2, rfl⟩ := checkRange_eq_some.mp hr
    exact .inl ⟨h1, h2, rfl⟩

/-- FX33 (R182): the bounds fault, or the three digits stored. -/
theorem execLdB_cases (x : Nibble) (s : State) :
    (4096 < s.i.toNat + 3 ∧ execLdB x s =
      .next (raise .outOfBounds (.ldB x) (BitVec.ofNat 17 (max 4096 s.i.toNat)) s)) ∨
    (s.i.toNat + 3 ≤ 4096 ∧ execLdB x s = .next (s.store s.i.toNat (bcdDigits (s.reg x)))) := by
  unfold execLdB
  cases hr : checkRange s.i.toNat 3 with
  | none =>
    have := checkRange_eq_none.mp hr
    exact .inr ⟨by omega, rfl⟩
  | some bad =>
    obtain ⟨-, h2, rfl⟩ := checkRange_eq_some.mp hr
    exact .inl ⟨h2, rfl⟩

/-- FX55 (R183): the bounds fault, or the registers stored and `I` as `Q_MEMINC` says. -/
theorem execLdMemVx_cases (x : Nibble) (s : State) :
    (4096 < s.i.toNat + (x.toNat + 1) ∧ execLdMemVx x s =
      .next (raise .outOfBounds (.ldMemVx x) (BitVec.ofNat 17 (max 4096 s.i.toNat)) s)) ∨
    (s.i.toNat + (x.toNat + 1) ≤ 4096 ∧ execLdMemVx x s =
      .next ((s.store s.i.toNat (s.dumpBytes x)).setI (s.indexAfter x))) := by
  unfold execLdMemVx
  cases hr : checkRange s.i.toNat (regCount x) with
  | none =>
    have := checkRange_eq_none.mp hr
    exact .inr ⟨by unfold regCount at this; omega, rfl⟩
  | some bad =>
    obtain ⟨-, h2, rfl⟩ := checkRange_eq_some.mp hr
    exact .inl ⟨h2, rfl⟩

/-- FX65 (R184): the bounds fault, or the registers loaded and `I` as `Q_MEMINC` says. -/
theorem execLdVxMem_cases (x : Nibble) (s : State) :
    (4096 < s.i.toNat + (x.toNat + 1) ∧ execLdVxMem x s =
      .next (raise .outOfBounds (.ldVxMem x) (BitVec.ofNat 17 (max 4096 s.i.toNat)) s)) ∨
    (s.i.toNat + (x.toNat + 1) ≤ 4096 ∧ execLdVxMem x s =
      .next { s with
        v := loadRegs 0 (s.mem.readBytes s.i.toNat (x.toNat + 1)) s.v, i := s.indexAfter x }) := by
  unfold execLdVxMem
  cases hr : checkRange s.i.toNat (regCount x) with
  | none =>
    have := checkRange_eq_none.mp hr
    exact .inr ⟨by unfold regCount at this; omega, rfl⟩
  | some bad =>
    obtain ⟨-, h2, rfl⟩ := checkRange_eq_some.mp hr
    exact .inl ⟨h2, rfl⟩

/-! ### Frames of the stores and of the register load -/

/-- Storing consecutive bytes in range: outside them memory reads as before. -/
theorem store_read_outside {s : State} (hm : s.mem.wf = true) {a : Nat} {bs : List Byte}
    (ha : a + bs.length ≤ 4096) {b : Nat} (hb : ¬ (a ≤ b ∧ b < a + bs.length)) :
    (s.store a bs).mem.read b = s.mem.read b :=
  read_writeBytes_outside hm ha hb

/-- A register after FX65's loads: from memory up to `V[x]`, unchanged above. -/
theorem loadRegs_readBytes (m : Memory) (a : Nat) (x r : Nibble) (v : Vector Byte 16) :
    (loadRegs 0 (m.readBytes a (x.toNat + 1)) v)[r.toNat]'r.isLt =
      if r.toNat ≤ x.toNat then m.read (a + r.toNat) else v[r.toNat]'r.isLt := by
  rw [loadRegs_getElem]
  by_cases h : r.toNat ≤ x.toNat
  · have h2 : 0 ≤ r.toNat ∧ r.toNat < 0 + (m.readBytes a (x.toNat + 1)).length := by
      simp only [readBytes_length]; omega
    rw [dif_pos h2, if_pos h, readBytes_getElem]
    rfl
  · have h2 : ¬ (0 ≤ r.toNat ∧ r.toNat < 0 + (m.readBytes a (x.toNat + 1)).length) := by
      simp only [readBytes_length]; omega
    rw [dif_neg h2, if_neg h]

/-! ### The draw (R161) -/

/-- The pixels a draw toggles are distinct. -/
theorem nodup_drawPixels (s : State) (x y n : Nibble) : (s.drawPixels x y n).Nodup := by
  apply nodup_spritePixels
  have := n.isLt
  simp only [readBytes_length]
  omega

/-- The pixels a draw toggles: one for each set bit of the sprite that lands on the screen. -/
theorem mem_drawPixels {s : State} {x y n : Nibble} {p : Fin 32 × Fin 64} :
    p ∈ s.drawPixels x y n ↔
      ∃ k < n.toNat, ∃ j < 8, (s.mem.read (s.i.toNat + k)).getLsbD (7 - j) = true ∧
        pixelTarget s.quirks.drawMode ((s.reg y).toNat % 32 + k) ((s.reg x).toNat % 64 + j) = some p := by
  unfold State.drawPixels
  rw [mem_spritePixels]
  constructor
  · rintro ⟨k, hk, j, hj, hb, ht⟩
    exact ⟨k, by simpa using hk, j, hj, by simpa using hb, ht⟩
  · rintro ⟨k, hk, j, hj, hb, ht⟩
    exact ⟨k, by simpa using hk, j, hj, by simpa using hb, ht⟩

/-- What a draw that does not fault does, pixel by pixel. -/
theorem togglePixels_drawPixels (s : State) (x y n : Nibble) :
    (∀ r c, Display.pixel (togglePixels (s.drawPixels x y n) (s.fb, false)).1 r c =
      (Display.pixel s.fb r c ^^ decide ((r, c) ∈ s.drawPixels x y n))) ∧
    (togglePixels (s.drawPixels x y n) (s.fb, false)).2 =
      (s.drawPixels x y n).any fun p => Display.pixel s.fb p.1 p.2 := by
  obtain ⟨h1, h2⟩ := togglePixels_spec (nodup_drawPixels s x y n) s.fb false
  exact ⟨h1, h2.trans (Bool.false_or _)⟩

end Sys2Proof.Machine
end

