-- ==== Sys2Proof/Laws/PerInstr.lean ====
section
/-! SUPPORT. Statements made of each instruction as syntax, one lemma for each constructor. -/

namespace Sys2Proof.Laws

/-- Decoding the encoded instruction gives it back (R100, R109). -/
def RoundTrip.Statement (i : Instr) : Prop := decode (encode i) = .ok i

/-- The encoded instruction has the fixed bits of its row of the table, and the row is in the table
(R92, R101). -/
def FixedBits.Statement (i : Instr) : Prop :=
  i.row ∈ opcodeTable ∧ encode i &&& i.row.mask = i.row.fixed

/-! ### RoundTrip -/

theorem RoundTrip.cls : RoundTrip.Statement .cls := rfl
theorem RoundTrip.ret : RoundTrip.Statement .ret := rfl
theorem RoundTrip.jp (nnn : Addr12) : RoundTrip.Statement (.jp nnn) := by
  simp [RoundTrip.Statement, encode, decode]
theorem RoundTrip.call (nnn : Addr12) : RoundTrip.Statement (.call nnn) := by
  simp [RoundTrip.Statement, encode, decode]
theorem RoundTrip.seImm (x : Nibble) (nn : Byte) : RoundTrip.Statement (.seImm x nn) := by
  simp [RoundTrip.Statement, encode, decode]
theorem RoundTrip.sneImm (x : Nibble) (nn : Byte) : RoundTrip.Statement (.sneImm x nn) := by
  simp [RoundTrip.Statement, encode, decode]
theorem RoundTrip.seReg (x : Nibble) (y : Nibble) : RoundTrip.Statement (.seReg x y) := by
  simp [RoundTrip.Statement, encode, decode]
theorem RoundTrip.ldImm (x : Nibble) (nn : Byte) : RoundTrip.Statement (.ldImm x nn) := by
  simp [RoundTrip.Statement, encode, decode]
theorem RoundTrip.addImm (x : Nibble) (nn : Byte) : RoundTrip.Statement (.addImm x nn) := by
  simp [RoundTrip.Statement, encode, decode]
theorem RoundTrip.ldReg (x : Nibble) (y : Nibble) : RoundTrip.Statement (.ldReg x y) := by
  simp [RoundTrip.Statement, encode, decode, decodeClass8]
theorem RoundTrip.orReg (x : Nibble) (y : Nibble) : RoundTrip.Statement (.orReg x y) := by
  simp [RoundTrip.Statement, encode, decode, decodeClass8]
theorem RoundTrip.andReg (x : Nibble) (y : Nibble) : RoundTrip.Statement (.andReg x y) := by
  simp [RoundTrip.Statement, encode, decode, decodeClass8]
theorem RoundTrip.xorReg (x : Nibble) (y : Nibble) : RoundTrip.Statement (.xorReg x y) := by
  simp [RoundTrip.Statement, encode, decode, decodeClass8]
theorem RoundTrip.addReg (x : Nibble) (y : Nibble) : RoundTrip.Statement (.addReg x y) := by
  simp [RoundTrip.Statement, encode, decode, decodeClass8]
theorem RoundTrip.sub (x : Nibble) (y : Nibble) : RoundTrip.Statement (.sub x y) := by
  simp [RoundTrip.Statement, encode, decode, decodeClass8]
theorem RoundTrip.shr (x : Nibble) (y : Nibble) : RoundTrip.Statement (.shr x y) := by
  simp [RoundTrip.Statement, encode, decode, decodeClass8]
theorem RoundTrip.subn (x : Nibble) (y : Nibble) : RoundTrip.Statement (.subn x y) := by
  simp [RoundTrip.Statement, encode, decode, decodeClass8]
theorem RoundTrip.shl (x : Nibble) (y : Nibble) : RoundTrip.Statement (.shl x y) := by
  simp [RoundTrip.Statement, encode, decode, decodeClass8]
theorem RoundTrip.sneReg (x : Nibble) (y : Nibble) : RoundTrip.Statement (.sneReg x y) := by
  simp [RoundTrip.Statement, encode, decode]
theorem RoundTrip.ldI (nnn : Addr12) : RoundTrip.Statement (.ldI nnn) := by
  simp [RoundTrip.Statement, encode, decode]
theorem RoundTrip.jpV0 (nnn : Addr12) : RoundTrip.Statement (.jpV0 nnn) := by
  simp [RoundTrip.Statement, encode, decode]
theorem RoundTrip.rnd (x : Nibble) (nn : Byte) : RoundTrip.Statement (.rnd x nn) := by
  simp [RoundTrip.Statement, encode, decode]
theorem RoundTrip.drw (x : Nibble) (y : Nibble) (n : Nibble) : RoundTrip.Statement (.drw x y n) := by
  simp [RoundTrip.Statement, encode, decode]
theorem RoundTrip.skp (x : Nibble) : RoundTrip.Statement (.skp x) := by
  simp [RoundTrip.Statement, encode, decode, decodeClassE]
theorem RoundTrip.sknp (x : Nibble) : RoundTrip.Statement (.sknp x) := by
  simp [RoundTrip.Statement, encode, decode, decodeClassE]
theorem RoundTrip.ldVxDT (x : Nibble) : RoundTrip.Statement (.ldVxDT x) := by
  simp [RoundTrip.Statement, encode, decode, decodeClassF]
theorem RoundTrip.ldVxK (x : Nibble) : RoundTrip.Statement (.ldVxK x) := by
  simp [RoundTrip.Statement, encode, decode, decodeClassF]
theorem RoundTrip.ldDTVx (x : Nibble) : RoundTrip.Statement (.ldDTVx x) := by
  simp [RoundTrip.Statement, encode, decode, decodeClassF]
theorem RoundTrip.ldSTVx (x : Nibble) : RoundTrip.Statement (.ldSTVx x) := by
  simp [RoundTrip.Statement, encode, decode, decodeClassF]
theorem RoundTrip.addI (x : Nibble) : RoundTrip.Statement (.addI x) := by
  simp [RoundTrip.Statement, encode, decode, decodeClassF]
theorem RoundTrip.ldF (x : Nibble) : RoundTrip.Statement (.ldF x) := by
  simp [RoundTrip.Statement, encode, decode, decodeClassF]
theorem RoundTrip.ldB (x : Nibble) : RoundTrip.Statement (.ldB x) := by
  simp [RoundTrip.Statement, encode, decode, decodeClassF]
theorem RoundTrip.ldMemVx (x : Nibble) : RoundTrip.Statement (.ldMemVx x) := by
  simp [RoundTrip.Statement, encode, decode, decodeClassF]
theorem RoundTrip.ldVxMem (x : Nibble) : RoundTrip.Statement (.ldVxMem x) := by
  simp [RoundTrip.Statement, encode, decode, decodeClassF]

/-! ### FixedBits -/

theorem and_ones4 (a : BitVec 4) : a &&& 15#4 = a := BitVec.and_allOnes
theorem and_ones8 (a : BitVec 8) : a &&& 255#8 = a := BitVec.and_allOnes
theorem mask_NNN (op : Nibble) (nnn : Addr12) : wordNNN op nnn &&& 0xF000#16 = wordNNN op 0 := by
  rw [show (0xF000#16 : Word) = wordNNN 0xF 0 by decide, wordNNN_and]
  simp [and_ones4]
theorem mask_XNN (op x : Nibble) (nn : Byte) : wordXNN op x nn &&& 0xF000#16 = wordXNN op 0 0 := by
  rw [show (0xF000#16 : Word) = wordXNN 0xF 0 0 by decide, wordXNN_and]
  simp [and_ones4]
theorem mask_X (op x : Nibble) (nn : Byte) : wordXNN op x nn &&& 0xF0FF#16 = wordXNN op 0 nn := by
  rw [show (0xF0FF#16 : Word) = wordXNN 0xF 0 0xFF by decide, wordXNN_and]
  simp [and_ones4, and_ones8]
theorem mask_XYN (op x y n : Nibble) : wordXYN op x y n &&& 0xF000#16 = wordXYN op 0 0 0 := by
  rw [show (0xF000#16 : Word) = wordXYN 0xF 0 0 0 by decide, wordXYN_and]
  simp [and_ones4]
theorem mask_XY (op x y n : Nibble) : wordXYN op x y n &&& 0xF00F#16 = wordXYN op 0 0 n := by
  rw [show (0xF00F#16 : Word) = wordXYN 0xF 0 0 0xF by decide, wordXYN_and]
  simp [and_ones4]

theorem FixedBits.cls : FixedBits.Statement .cls :=
  ⟨by simp [opcodeTable, Instr.row], rfl⟩
theorem FixedBits.ret : FixedBits.Statement .ret :=
  ⟨by simp [opcodeTable, Instr.row], rfl⟩
theorem FixedBits.jp (nnn : Addr12) : FixedBits.Statement (.jp nnn) := 
  ⟨by simp [opcodeTable, Instr.row], (mask_NNN _ _).trans rfl⟩
theorem FixedBits.call (nnn : Addr12) : FixedBits.Statement (.call nnn) := 
  ⟨by simp [opcodeTable, Instr.row], (mask_NNN _ _).trans rfl⟩
theorem FixedBits.seImm (x : Nibble) (nn : Byte) : FixedBits.Statement (.seImm x nn) := 
  ⟨by simp [opcodeTable, Instr.row], (mask_XNN _ _ _).trans rfl⟩
theorem FixedBits.sneImm (x : Nibble) (nn : Byte) : FixedBits.Statement (.sneImm x nn) := 
  ⟨by simp [opcodeTable, Instr.row], (mask_XNN _ _ _).trans rfl⟩
theorem FixedBits.seReg (x : Nibble) (y : Nibble) : FixedBits.Statement (.seReg x y) := 
  ⟨by simp [opcodeTable, Instr.row], (mask_XY _ _ _ _).trans rfl⟩
theorem FixedBits.ldImm (x : Nibble) (nn : Byte) : FixedBits.Statement (.ldImm x nn) := 
  ⟨by simp [opcodeTable, Instr.row], (mask_XNN _ _ _).trans rfl⟩
theorem FixedBits.addImm (x : Nibble) (nn : Byte) : FixedBits.Statement (.addImm x nn) := 
  ⟨by simp [opcodeTable, Instr.row], (mask_XNN _ _ _).trans rfl⟩
theorem FixedBits.ldReg (x : Nibble) (y : Nibble) : FixedBits.Statement (.ldReg x y) := 
  ⟨by simp [opcodeTable, Instr.row], (mask_XY _ _ _ _).trans rfl⟩
theorem FixedBits.orReg (x : Nibble) (y : Nibble) : FixedBits.Statement (.orReg x y) := 
  ⟨by simp [opcodeTable, Instr.row], (mask_XY _ _ _ _).trans rfl⟩
theorem FixedBits.andReg (x : Nibble) (y : Nibble) : FixedBits.Statement (.andReg x y) := 
  ⟨by simp [opcodeTable, Instr.row], (mask_XY _ _ _ _).trans rfl⟩
theorem FixedBits.xorReg (x : Nibble) (y : Nibble) : FixedBits.Statement (.xorReg x y) := 
  ⟨by simp [opcodeTable, Instr.row], (mask_XY _ _ _ _).trans rfl⟩
theorem FixedBits.addReg (x : Nibble) (y : Nibble) : FixedBits.Statement (.addReg x y) := 
  ⟨by simp [opcodeTable, Instr.row], (mask_XY _ _ _ _).trans rfl⟩
theorem FixedBits.sub (x : Nibble) (y : Nibble) : FixedBits.Statement (.sub x y) := 
  ⟨by simp [opcodeTable, Instr.row], (mask_XY _ _ _ _).trans rfl⟩
theorem FixedBits.shr (x : Nibble) (y : Nibble) : FixedBits.Statement (.shr x y) := 
  ⟨by simp [opcodeTable, Instr.row], (mask_XY _ _ _ _).trans rfl⟩
theorem FixedBits.subn (x : Nibble) (y : Nibble) : FixedBits.Statement (.subn x y) := 
  ⟨by simp [opcodeTable, Instr.row], (mask_XY _ _ _ _).trans rfl⟩
theorem FixedBits.shl (x : Nibble) (y : Nibble) : FixedBits.Statement (.shl x y) := 
  ⟨by simp [opcodeTable, Instr.row], (mask_XY _ _ _ _).trans rfl⟩
theorem FixedBits.sneReg (x : Nibble) (y : Nibble) : FixedBits.Statement (.sneReg x y) := 
  ⟨by simp [opcodeTable, Instr.row], (mask_XY _ _ _ _).trans rfl⟩
theorem FixedBits.ldI (nnn : Addr12) : FixedBits.Statement (.ldI nnn) := 
  ⟨by simp [opcodeTable, Instr.row], (mask_NNN _ _).trans rfl⟩
theorem FixedBits.jpV0 (nnn : Addr12) : FixedBits.Statement (.jpV0 nnn) := 
  ⟨by simp [opcodeTable, Instr.row], (mask_NNN _ _).trans rfl⟩
theorem FixedBits.rnd (x : Nibble) (nn : Byte) : FixedBits.Statement (.rnd x nn) := 
  ⟨by simp [opcodeTable, Instr.row], (mask_XNN _ _ _).trans rfl⟩
theorem FixedBits.drw (x : Nibble) (y : Nibble) (n : Nibble) : FixedBits.Statement (.drw x y n) := 
  ⟨by simp [opcodeTable, Instr.row], (mask_XYN _ _ _ _).trans rfl⟩
theorem FixedBits.skp (x : Nibble) : FixedBits.Statement (.skp x) := 
  ⟨by simp [opcodeTable, Instr.row], (mask_X _ _ _).trans rfl⟩
theorem FixedBits.sknp (x : Nibble) : FixedBits.Statement (.sknp x) := 
  ⟨by simp [opcodeTable, Instr.row], (mask_X _ _ _).trans rfl⟩
theorem FixedBits.ldVxDT (x : Nibble) : FixedBits.Statement (.ldVxDT x) := 
  ⟨by simp [opcodeTable, Instr.row], (mask_X _ _ _).trans rfl⟩
theorem FixedBits.ldVxK (x : Nibble) : FixedBits.Statement (.ldVxK x) := 
  ⟨by simp [opcodeTable, Instr.row], (mask_X _ _ _).trans rfl⟩
theorem FixedBits.ldDTVx (x : Nibble) : FixedBits.Statement (.ldDTVx x) := 
  ⟨by simp [opcodeTable, Instr.row], (mask_X _ _ _).trans rfl⟩
theorem FixedBits.ldSTVx (x : Nibble) : FixedBits.Statement (.ldSTVx x) := 
  ⟨by simp [opcodeTable, Instr.row], (mask_X _ _ _).trans rfl⟩
theorem FixedBits.addI (x : Nibble) : FixedBits.Statement (.addI x) := 
  ⟨by simp [opcodeTable, Instr.row], (mask_X _ _ _).trans rfl⟩
theorem FixedBits.ldF (x : Nibble) : FixedBits.Statement (.ldF x) := 
  ⟨by simp [opcodeTable, Instr.row], (mask_X _ _ _).trans rfl⟩
theorem FixedBits.ldB (x : Nibble) : FixedBits.Statement (.ldB x) := 
  ⟨by simp [opcodeTable, Instr.row], (mask_X _ _ _).trans rfl⟩
theorem FixedBits.ldMemVx (x : Nibble) : FixedBits.Statement (.ldMemVx x) := 
  ⟨by simp [opcodeTable, Instr.row], (mask_X _ _ _).trans rfl⟩
theorem FixedBits.ldVxMem (x : Nibble) : FixedBits.Statement (.ldVxMem x) := 
  ⟨by simp [opcodeTable, Instr.row], (mask_X _ _ _).trans rfl⟩

end Sys2Proof.Laws
end

