-- ==== Sys2Proof/Laws/Step.lean ====
section
/-! SUPPORT. What a step can do: the next event, fetching, and the three kinds of Pass. -/

namespace Sys2Proof.Machine

theorem step_eq (s : State) : step s = runEvent (nextEvent s).1 (nextEvent s).2 := rfl

/-- A step by its next event. -/
theorem step_of_nextEvent {s s' : State} {e : Event} (h : nextEvent s = (e, s')) :
    step s = runEvent e s' := by
  rw [step_eq, h]

theorem nextEvent_pending {s : State} {e : Event} {rest : List Event} (h : s.pending = e :: rest) :
    nextEvent s = (e, { s with pending := rest }) := by
  unfold nextEvent
  rw [h]

theorem nextEvent_free {s : State} (h : s.pending = []) :
    nextEvent s = (.pass (Config.keysIn s.clock) (Config.rndIn s.clock),
      { ticks (ticksBefore s.clock) s with clock := s.clock + 1 }) := by
  unfold nextEvent
  rw [h]

/-! ### The order of Passes and Ticks (R45, R221) -/

theorem passesToTick_succ {k w : Nat} (h : passesToTick k = w + 1) : passesToTick (k + 1) = w := by
  rw [passesToTick, h]

theorem ticksBefore_pos {k : Nat} : 0 < ticksBefore k ↔ passesToTick k = 0 := by
  unfold ticksBefore
  split <;> simp_all

/-- From every pass on there is one with a Tick before it: the wait for a Tick is finite. -/
theorem exists_ticksBefore_pos (k : Nat) : ∃ j, k ≤ j ∧ 0 < ticksBefore j := by
  generalize hw : passesToTick k = w
  induction w generalizing k with
  | zero => exact ⟨k, le_rfl, ticksBefore_pos.mpr hw⟩
  | succ w ih =>
    obtain ⟨j, hj, hpos⟩ := ih (k + 1) (passesToTick_succ hw)
    exact ⟨j, by omega, hpos⟩

/-- The state an event finds differs from the one before only in the timers, the event list and the
clock. -/
theorem nextEvent_state {s s' : State} {e : Event} (h : nextEvent s = (e, s')) :
    s' = { s with dt := s'.dt, st := s'.st, pending := s'.pending, clock := s'.clock } := by
  cases hp : s.pending with
  | nil => rw [nextEvent_free hp] at h; obtain ⟨-, rfl⟩ := Prod.mk.inj h; rfl
  | cons e' rest => rw [nextEvent_pending hp] at h; obtain ⟨-, rfl⟩ := Prod.mk.inj h; rfl

/-- Fetching succeeds exactly when both bytes exist (R63). -/
theorem fetchWord_ok {s : State} (h : s.pc.toNat + 1 ≤ 4095) :
    s.fetchWord = .ok (wordOfBytes (s.mem.read s.pc.toNat) (s.mem.read (s.pc.toNat + 1))) := by
  unfold State.fetchWord
  rw [checkRange_eq_none.mpr (by omega)]

theorem fetchWord_error {s : State} (h : 4095 < s.pc.toNat + 1) :
    s.fetchWord = .error (BitVec.ofNat 17 (max 4096 s.pc.toNat)) := by
  unfold State.fetchWord
  rw [checkRange_eq_some.mpr ⟨by omega, by omega, rfl⟩]

/-- Two bytes decode to an instruction exactly when their word does. -/
theorem decodeBytes_pair {hi lo : Byte} {i : Instr} :
    decodeBytes [hi, lo] = .ok (i, []) ↔ decode (wordOfBytes hi lo) = .ok i := by
  unfold decodeBytes
  cases h : decode (wordOfBytes hi lo) <;> simp [h]

/-- A Pass in Running, by what it fetches: a fetch fault, an unknown word, or an instruction. -/
theorem runningPass_cases (s : State) :
    (4095 < s.pc.toNat + 1 ∧ runningPass s =
      .next (takeFault .outOfBounds s.pc 0 (BitVec.ofNat 17 (max 4096 s.pc.toNat)) s)) ∨
    (s.pc.toNat + 1 ≤ 4095 ∧ ∃ w, s.fetchWord = .ok w ∧
      ((∃ e, decode w = .error e ∧
        runningPass s = .next (takeFault .unknownOpcode s.pc w 0 (s.setPc (s.pc + 2)))) ∨
       (∃ i, decode w = .ok i ∧ runningPass s = exec i (s.setPc (s.pc + 2))))) := by
  unfold runningPass
  by_cases h : 4095 < s.pc.toNat + 1
  · exact .inl ⟨h, by rw [fetchWord_error h]⟩
  · have h' : s.pc.toNat + 1 ≤ 4095 := by omega
    refine .inr ⟨h', _, fetchWord_ok h', ?_⟩
    rw [fetchWord_ok h']
    cases hd : decode (wordOfBytes (s.mem.read s.pc.toNat) (s.mem.read (s.pc.toNat + 1))) with
    | error e => exact .inl ⟨e, rfl, by simp only [hd]⟩
    | ok i => exact .inr ⟨i, rfl, by simp only [hd]⟩

/-- What an event does when it answers a next state, case by case. -/
theorem runEvent_next {e : Event} {s t : State} (h : runEvent e s = .next t) :
    (∃ q, e = .reset q ∧ t = resetEvent q s) ∨
    (∃ bytes, e = .load bytes ∧ s.loadOpen = true ∧ t = loadEvent bytes s) ∨
    (∃ k b, e = .pass k b ∧ s.loadOk = true ∧ s.rs = .running ∧
      runningPass (beginPass k b s) = .next t) ∨
    (∃ k b, e = .pass k b ∧ s.loadOk = true ∧ s.rs = .waitingForKey ∧
      t = waitingPass (beginPass k b s)) ∨
    (e = .tick ∧ s.rs ≠ .halted ∧ t = ticks 1 s) ∨
    (e = .frame ∧ t = s) := by
  cases e with
  | reset q => exact .inl ⟨q, rfl, (Host.Outcome.next.inj h).symm⟩
  | load bytes =>
    simp only [runEvent] at h
    split at h
    · exact .inr (.inl ⟨bytes, rfl, ‹_›, (Host.Outcome.next.inj h).symm⟩)
    · cases h
  | pass k b =>
    simp only [runEvent] at h
    split at h
    · rename_i hl
      unfold runPass at h
      split at h
      · rename_i hr
        exact .inr (.inr (.inl ⟨k, b, rfl, hl, hr, h⟩))
      · rename_i hr
        exact .inr (.inr (.inr (.inl ⟨k, b, rfl, hl, hr, (Host.Outcome.next.inj h).symm⟩)))
      · cases h
    · cases h
  | tick =>
    simp only [runEvent] at h
    split at h
    · cases h
    · exact .inr (.inr (.inr (.inr (.inl ⟨rfl, ‹_›, (Host.Outcome.next.inj h).symm⟩))))
  | frame => exact .inr (.inr (.inr (.inr (.inr ⟨rfl, (Host.Outcome.next.inj h).symm⟩))))

/-- A waiting Pass ends the wait with a newly pressed key, or refreshes the sample (R173). -/
theorem waitingPass_cases (s : State) :
    (s.newKeys = 0 ∧ waitingPass s = { s with prevKeys := s.keys }) ∨
    (∃ k : Nibble, s.newKeys.getLsbD k.toNat = true ∧
      waitingPass s = { s.setReg s.waitX (k.setWidth 8) with rs := .running }) := by
  unfold waitingPass
  cases hk : pickKey s.newKeys with
  | none => exact .inl ⟨pickKey_eq_none.mp hk, rfl⟩
  | some k => exact .inr ⟨k, pickKey_mem hk, rfl⟩

end Sys2Proof.Machine
end

