-- ==== Sys2Proof/Tests/Slice0.lean ====
section
/-! SUPPORT. Tests of the checks, the decoder and each instruction, and a witness for the hypotheses of each
statement. Expected results: spec/95_test_vectors.md (the vector's name stands at each test) and the
encodings of R101; where no vector is named, the rule named is worked by hand. -/

namespace Sys2Proof.Tests
open Sys2Proof.Machine

/-! ## Helpers -/

/-- The outcome is a next state of which `f` holds. -/
def ran (o : Host.Outcome State Fault Refusal) (f : State → Bool) : Bool :=
  match o with
  | .next t => f t
  | .fault _ => false
  | .refused _ => false

/-- `s` with some registers set. -/
def withRegs (rs : List (Nibble × Byte)) (s : State) : State := rs.foldl (fun s p => s.setReg p.1 p.2) s

/-- `s` with some bytes of memory set from `a` on. -/
def withBytes (a : Nat) (bs : List Byte) (s : State) : State := s.store a bs

/-- `s` with one strap setting. -/
def withQuirks (q : Quirks) (s : State) : State := { s with quirks := q }

/-- One step on the word `w` at `PC`, as a Pass with the keys and the random byte that `s` holds. -/
def stepWord (s : State) (w : Nat) : Host.Outcome State Fault Refusal :=
  step { s.withFetchWord 16 w with pending := [.pass s.keys s.rnd] }

/-- One step on one event. -/
def stepEvent (s : State) (e : Event) : Host.Outcome State Fault Refusal := step { s with pending := [e] }

/-- The record that `ERR` holds. -/
def errIs (t : State) (k : ErrKind) (pc word : Word) (addr : BitVec 17) : Bool :=
  decide (t.rs = .halted) && decide (t.err = { kind := k, pc := pc, word := word, addr := addr })

/-- The lit pixels are exactly these. -/
def litAre (t : State) (ps : List (Fin 32 × Fin 64)) : Bool :=
  decide (t.fb = ps.foldl (fun fb p => Display.toggle fb p.1 p.2) Display.blank)

/-- Straps with every quirk the other way round from REF. -/
def otherQuirks : Quirks :=
  { shift := false, jump := true, drawMode := .wrap, memInc := true, addIFlag := true }

/-! ## The checks (WellFormed.lean) -/

/-- R66: the table must end at or below 0x1FF; 0x1B0 is the last legal base. -/
theorem test_fontBase_check : wellFormedFontBase 0x1B0 = true ∧ wellFormedFontBase 0x1B1 = false := by decide

/-- S15: 3584 bytes are accepted, 3585 are not. -/
theorem test_rom_check :
    wellFormedRom (List.replicate 3584 0) = true ∧ wellFormedRom (List.replicate 3585 0) = false := by
  unfold wellFormedRom
  rw [List.length_replicate, List.length_replicate]
  decide

/-- R93: no operand can be illegal, so the check refuses no instruction. -/
theorem test_every_instruction_wellFormed (i : Instr) : i.wellFormed = true := by
  cases i <;> first
    | rfl
    | exact decide_eq_true (BitVec.isLt _)
    | exact decide_eq_true ⟨BitVec.isLt _, BitVec.isLt _⟩
    | exact decide_eq_true ⟨BitVec.isLt _, BitVec.isLt _, BitVec.isLt _⟩

/-- The canonical form refuses an entry out of order, one outside memory, and one that says what an unlisted
address reads as. -/
theorem test_memory_check :
    Memory.wf { fontBase := 0x50, cells := [(0x300, 1), (0x301, 2)] } = true ∧
    Memory.wf { fontBase := 0x50, cells := [(0x301, 1), (0x300, 2)] } = false ∧
    Memory.wf { fontBase := 0x50, cells := [(0x1000, 1)] } = false ∧
    Memory.wf { fontBase := 0x50, cells := [(0x50, 0xF0)] } = false ∧
    Memory.wf { fontBase := 0x1B1, cells := [] } = false := by decide

/-! ## The decoder: one word for each constructor, its bits written out from R101 -/

theorem test_decode_classes_0_to_7 :
    decode 0b0000000011100000#16 = .ok .cls ∧
    decode 0b0000000011101110#16 = .ok .ret ∧
    decode 0b0001101010111100#16 = .ok (.jp 0xABC) ∧
    decode 0b0010010000000001#16 = .ok (.call 0x401) ∧
    decode 0b0011001001000001#16 = .ok (.seImm 2 0x41) ∧
    decode 0b0100001001000010#16 = .ok (.sneImm 2 0x42) ∧
    decode 0b0101000100100000#16 = .ok (.seReg 1 2) ∧
    decode 0b0110101011111111#16 = .ok (.ldImm 10 0xFF) ∧
    decode 0b0111111100000001#16 = .ok (.addImm 15 1) := by decide

theorem test_decode_class_8 :
    decode 0b1000000100100000#16 = .ok (.ldReg 1 2) ∧
    decode 0b1000000100100001#16 = .ok (.orReg 1 2) ∧
    decode 0b1000000100100010#16 = .ok (.andReg 1 2) ∧
    decode 0b1000000100100011#16 = .ok (.xorReg 1 2) ∧
    decode 0b1000000100100100#16 = .ok (.addReg 1 2) ∧
    decode 0b1000000100100101#16 = .ok (.sub 1 2) ∧
    decode 0b1000000100100110#16 = .ok (.shr 1 2) ∧
    decode 0b1000000100100111#16 = .ok (.subn 1 2) ∧
    decode 0b1000000100101110#16 = .ok (.shl 1 2) := by decide

theorem test_decode_classes_9_to_E :
    decode 0b1001101010110000#16 = .ok (.sneReg 10 11) ∧
    decode 0b1010001011110000#16 = .ok (.ldI 0x2F0) ∧
    decode 0b1011111111111111#16 = .ok (.jpV0 0xFFF) ∧
    decode 0b1100000100001111#16 = .ok (.rnd 1 0x0F) ∧
    decode 0b1101000100101010#16 = .ok (.drw 1 2 10) ∧
    decode 0b1110000110011110#16 = .ok (.skp 1) ∧
    decode 0b1110000110100001#16 = .ok (.sknp 1) := by decide

theorem test_decode_class_F :
    decode 0b1111010000000111#16 = .ok (.ldVxDT 4) ∧
    decode 0b1111001100001010#16 = .ok (.ldVxK 3) ∧
    decode 0b1111001100010101#16 = .ok (.ldDTVx 3) ∧
    decode 0b1111001100011000#16 = .ok (.ldSTVx 3) ∧
    decode 0b1111001000011110#16 = .ok (.addI 2) ∧
    decode 0b1111000100101001#16 = .ok (.ldF 1) ∧
    decode 0b1111010000110011#16 = .ok (.ldB 4) ∧
    decode 0b1111001001010101#16 = .ok (.ldMemVx 2) ∧
    decode 0b1111000101100101#16 = .ok (.ldVxMem 1) := by decide

/-- Section 2.1: words that decode to nothing. -/
theorem test_decode_unknown :
    ([0x00E1#16, 0x0000#16, 0x0123#16, 0x00FD#16, 0x00FF#16, 0x5121#16, 0x9AB1#16, 0x8128#16,
      0x812D#16, 0x812F#16, 0xE19F#16, 0xE100#16, 0xF1FF#16, 0xF130#16, 0xF175#16, 0xF185#16, 0xF100#16].all
      fun w => decide (decode w = .error (.unknownOpcode w))) = true := by decide

/-- R65: the high byte stands first; a word needs two bytes (R90). -/
theorem test_decode_bytes :
    decodeBytes [0xD1, 0x2A, 0x77] = .ok (.drw 1 2 0xA, [0x77]) ∧ decodeBytes [0xD1] = .error .truncated ∧
    bytesOfWord 0xD12A = [0xD1, 0x2A] := by decide

/-- The host's numbering: the word's value, bits above `nbits` zero. -/
theorem test_decodeTableWord :
    decodeTableWord 16 0x8124 = some (.addReg 1 2) ∧ decodeTableWord 16 0x8128 = none ∧
    decodeTableWord 16 0xFD12A = some (.drw 1 2 0xA) := by decide

/-- S9: re-encoding 0xD12A. -/
theorem test_encode : encode (.drw 1 2 0xA) = 0xD12A#16 := by decide

/-! ## Reset, Load and the free Pass -/

/-- Section 2.9: the state after Reset. -/
theorem test_reset :
    State.reset.pc = 0x200 ∧ State.reset.rs = .running ∧ State.reset.sp = 0 ∧ State.reset.loadOk = true ∧
    State.reset.audioOn = false ∧
    State.reset.mem.readBytes 0x50 10 = [0xF0, 0x90, 0x90, 0x90, 0xF0, 0x20, 0x60, 0x20, 0x20, 0x70] ∧
    State.reset.mem.readBytes 0x9B 6 = [0xF0, 0x80, 0xF0, 0x80, 0x80, 0x00] ∧
    State.reset.mem.read 0x4F = 0 := by decide

/-- X8: only Reset leaves Halted, and clears the record. -/
theorem test_reset_event :
    ran (stepEvent (takeFault .unknownOpcode 0x200 0 0 .reset) (.reset otherQuirks)) (fun t =>
      decide (t = { State.reset with quirks := otherQuirks })) = true := by decide

/-- Section 2.9: Load of 00 E0 12 00. -/
theorem test_load :
    ran (stepEvent .reset (.load [0x00, 0xE0, 0x12, 0x00])) (fun t =>
      t.mem.readBytes 0x200 5 == [0x00, 0xE0, 0x12, 0x00, 0x00] && t.loadOk && !t.loadOpen) = true := by decide

/-- With no event pending a step runs the placed word, whatever the free inputs are. -/
theorem test_free_pass :
    ran (step (State.reset.withFetchWord 16 0x6AFF)) (fun t => t.reg 10 == 0xFF && t.pc == 0x202) = true ∧
    ran (step (State.reset.withFetchWord 16 0xE19E)) (fun _ => true) = true := by decide

/-- X3: the last address a word can be fetched from. -/
theorem test_fetch_last :
    ran (stepWord { State.reset with pc := 0xFFE } 0x6000) (fun t =>
      t.pc == 0x1000 && decide (t.rs = .running)) = true := by decide

/-- X4: the fetch itself faults. -/
theorem test_fetch_outside :
    ran (stepEvent { State.reset with pc := 0xFFF } (.pass 0 0)) (fun t =>
      errIs t .outOfBounds 0xFFF 0 0x1000 && t.pc == 0xFFF) = true := by decide

/-- X6: the lowest out-of-range address. -/
theorem test_fetch_far_outside :
    ran (stepEvent { State.reset with pc := 0xFFFE } (.pass 0 0)) (fun t =>
      errIs t .outOfBounds 0xFFFE 0 0xFFFE) = true := by decide

/-- X2: an unknown word. -/
theorem test_unknown_word :
    ran (stepWord .reset 0x8128) (fun t => errIs t .unknownOpcode 0x200 0x8128 0 && t.pc == 0x202) = true := by
  decide

/-- X7: no Pass and no Tick in Halted. -/
theorem test_halted_stops :
    stepEvent { State.reset with rs := .halted } (.pass 0 0) = .fault .halted ∧
    stepEvent { State.reset with rs := .halted } .tick = .fault .halted := ⟨rfl, rfl⟩

/-! ## Control flow (F1 to F21) -/

/-- F7 and F8. -/
theorem test_ret :
    ran (stepWord { State.reset with pc := 0x400, sp := 1, stack := State.reset.stack.set 0 0x2F2 } 0x00EE)
      (fun t => t.pc == 0x2F2 && t.sp == 0 && t.stack[0] == 0x2F2) = true ∧
    ran (stepWord .reset 0x00EE) (fun t =>
      errIs t .stackUnderflow 0x200 0x00EE 0 && t.pc == 0x202 && t.sp == 0) = true := by decide

/-- F1 and S12. -/
theorem test_jp :
    ran (stepWord .reset 0x1ABC) (fun t => t.pc == 0xABC) = true ∧
    ran (stepWord { State.reset with pc := 0x202 } 0x1200) (fun t => t.pc == 0x200) = true := by decide

/-- F4. -/
theorem test_call :
    ran (stepWord { State.reset with pc := 0x2F0 } 0x2400) (fun t =>
      t.stack[0] == 0x2F2 && t.sp == 1 && t.pc == 0x400) = true := by decide

/-- F6. -/
theorem test_call_overflow :
    ran (stepWord { State.reset with sp := 16 } 0x2400) (fun t =>
      errIs t .stackOverflow 0x200 0x2400 0 && t.pc == 0x202 && t.sp == 16) = true := by decide

/-- F9 and F10. -/
theorem test_jpV0 :
    ran (stepWord (withRegs [(0, 0x10), (3, 0x20)] .reset) 0xB300) (fun t => t.pc == 0x310) = true ∧
    ran (stepWord (withQuirks otherQuirks (withRegs [(0, 0x10), (3, 0x20)] .reset)) 0xB300)
      (fun t => t.pc == 0x320) = true := by decide

/-- F11: a target above memory is held, and faults when fetched from. -/
theorem test_jpV0_above_memory :
    ran (stepWord (withRegs [(0, 0xFF)] .reset) 0xBFFF) (fun t =>
      t.pc == 0x10FE && decide (t.rs = .running) &&
      ran (stepEvent t (.pass 0 0)) (fun u => errIs u .outOfBounds 0x10FE 0 0x10FE)) = true := by decide

/-- F12 and F13. -/
theorem test_seImm :
    ran (stepWord (withRegs [(2, 0x41)] .reset) 0x3241) (fun t => t.pc == 0x204) = true ∧
    ran (stepWord (withRegs [(2, 0x41)] .reset) 0x3242) (fun t => t.pc == 0x202) = true := by decide

/-- F14 and F15. -/
theorem test_sneImm :
    ran (stepWord (withRegs [(2, 0x41)] .reset) 0x4241) (fun t => t.pc == 0x202) = true ∧
    ran (stepWord (withRegs [(2, 0x41)] .reset) 0x4242) (fun t => t.pc == 0x204) = true := by decide

/-- F16 and F17. -/
theorem test_seReg :
    ran (stepWord (withRegs [(1, 7), (2, 7)] .reset) 0x5120) (fun t => t.pc == 0x204) = true ∧
    ran (stepWord (withRegs [(1, 7), (2, 8)] .reset) 0x5120) (fun t => t.pc == 0x202) = true := by decide

/-- F18 and F19. -/
theorem test_sneReg :
    ran (stepWord (withRegs [(1, 7), (2, 8)] .reset) 0x9120) (fun t => t.pc == 0x204) = true ∧
    ran (stepWord (withRegs [(1, 7), (2, 7)] .reset) 0x9120) (fun t => t.pc == 0x202) = true := by decide

/-! ## Registers and arithmetic (S1 to S3, A1 to A31) -/

/-- A2: a plain write of VF. -/
theorem test_ldImm : ran (stepWord (withRegs [(15, 1)] .reset) 0x6F00) (fun t => t.reg 15 == 0) = true := by
  decide

/-- A3: wraps without a flag. -/
theorem test_addImm :
    ran (stepWord (withRegs [(1, 0xFF)] .reset) 0x7102) (fun t => t.reg 1 == 1 && t.reg 15 == 0) = true := by
  decide

/-- A5. -/
theorem test_ldReg :
    ran (stepWord (withRegs [(2, 0x5A)] .reset) 0x8120) (fun t => t.reg 1 == 0x5A && t.reg 2 == 0x5A) = true := by
  decide

/-- A6: VF unchanged. -/
theorem test_orReg :
    ran (stepWord (withRegs [(1, 0xF0), (2, 0x0F), (15, 1)] .reset) 0x8121) (fun t =>
      t.reg 1 == 0xFF && t.reg 15 == 1) = true := by decide

/-- A7. -/
theorem test_andReg :
    ran (stepWord (withRegs [(1, 0xF0), (2, 0x3C)] .reset) 0x8122) (fun t => t.reg 1 == 0x30) = true := by decide

/-- A8 and A9. -/
theorem test_xorReg :
    ran (stepWord (withRegs [(1, 0xFF), (2, 0x0F)] .reset) 0x8123) (fun t => t.reg 1 == 0xF0) = true ∧
    ran (stepWord (withRegs [(1, 0xA5)] .reset) 0x8113) (fun t => t.reg 1 == 0) = true := by decide

/-- S1 and A12. -/
theorem test_addReg :
    ran (stepWord (withRegs [(1, 0xFF), (2, 1)] .reset) 0x8124) (fun t =>
      t.reg 1 == 0 && t.reg 15 == 1 && t.reg 2 == 1) = true ∧
    ran (stepWord (withRegs [(1, 0xFF), (2, 0)] .reset) 0x8124) (fun t =>
      t.reg 1 == 0xFF && t.reg 15 == 0) = true := by decide

/-- A14 and A16: VF as destination keeps the flag, VF as source is read before it. -/
theorem test_addReg_vf :
    ran (stepWord (withRegs [(15, 5), (1, 3)] .reset) 0x8F14) (fun t => t.reg 15 == 0) = true ∧
    ran (stepWord (withRegs [(1, 0xFF), (15, 1)] .reset) 0x81F4) (fun t =>
      t.reg 1 == 0 && t.reg 15 == 1) = true := by decide

/-- S2 and S3. -/
theorem test_sub :
    ran (stepWord (withRegs [(1, 5), (2, 3)] .reset) 0x8125) (fun t => t.reg 1 == 2 && t.reg 15 == 1) = true ∧
    ran (stepWord (withRegs [(1, 3), (2, 5)] .reset) 0x8125) (fun t =>
      t.reg 1 == 0xFE && t.reg 15 == 0) = true := by decide

/-- A17: equal operands do not borrow. -/
theorem test_sub_equal :
    ran (stepWord (withRegs [(1, 7), (2, 7)] .reset) 0x8125) (fun t => t.reg 1 == 0 && t.reg 15 == 1) = true := by
  decide

/-- A22 and A23. -/
theorem test_shr :
    ran (stepWord (withRegs [(1, 5), (2, 0xF0)] .reset) 0x8126) (fun t =>
      t.reg 1 == 2 && t.reg 15 == 1 && t.reg 2 == 0xF0) = true ∧
    ran (stepWord (withQuirks otherQuirks (withRegs [(1, 5), (2, 0xF0)] .reset)) 0x8126) (fun t =>
      t.reg 1 == 0x78 && t.reg 15 == 0) = true := by decide

/-- A26 and A27. -/
theorem test_shr_vf :
    ran (stepWord (withRegs [(15, 3)] .reset) 0x8F06) (fun t => t.reg 15 == 1) = true ∧
    ran (stepWord (withRegs [(15, 2)] .reset) 0x8F06) (fun t => t.reg 15 == 0) = true := by decide

/-- A20 and A21. -/
theorem test_subn :
    ran (stepWord (withRegs [(1, 3), (2, 5)] .reset) 0x8127) (fun t => t.reg 1 == 2 && t.reg 15 == 1) = true ∧
    ran (stepWord (withRegs [(1, 5), (2, 3)] .reset) 0x8127) (fun t =>
      t.reg 1 == 0xFE && t.reg 15 == 0) = true := by decide

/-- A24 and A25. -/
theorem test_shl :
    ran (stepWord (withRegs [(1, 0x81), (2, 0x40)] .reset) 0x812E) (fun t =>
      t.reg 1 == 2 && t.reg 15 == 1) = true ∧
    ran (stepWord (withQuirks otherQuirks (withRegs [(1, 0x81), (2, 0x40)] .reset)) 0x812E) (fun t =>
      t.reg 1 == 0x80 && t.reg 15 == 0 && t.reg 2 == 0x40) = true := by decide

/-- A29. -/
theorem test_rnd :
    ran (stepWord { State.reset with rnd := 0xA7 } 0xC10F) (fun t => t.reg 1 == 7) = true := by decide

/-! ## Display (S4, S8, G1 to G16) -/

/-- S11. -/
theorem test_cls :
    ran (stepWord (withRegs [(15, 9)] { State.reset with fb := Vector.replicate 32 0xFF }) 0x00E0) (fun t =>
      litAre t [] && t.reg 15 == 9) = true := by decide

/-- G2: clipped at the corner. -/
theorem test_drw_clip :
    ran (stepWord (withRegs [(0, 62), (1, 31)] (withBytes 0x300 [0xFF, 0xFF] { State.reset with i := 0x300 }))
      0xD012) (fun t => litAre t [(31, 62), (31, 63)] && t.reg 15 == 0) = true := by decide

/-- G3: wrapped at the corner. -/
theorem test_drw_wrap :
    ran (stepWord (withQuirks otherQuirks (withRegs [(0, 62), (1, 31)]
      (withBytes 0x300 [0xFF, 0xFF] { State.reset with i := 0x300 }))) 0xD012) (fun t =>
      litAre t ([(31, 62), (31, 63), (31, 0), (31, 1), (31, 2), (31, 3), (31, 4), (31, 5)] ++
        [(0, 62), (0, 63), (0, 0), (0, 1), (0, 2), (0, 3), (0, 4), (0, 5)]) && t.reg 15 == 0) = true := by
  decide

/-- S4: the same sprite twice. -/
theorem test_drw_twice :
    ran (stepWord (withBytes 0x300 [0xF0, 0x80] { State.reset with i := 0x300 }) 0xD002) (fun t =>
      litAre t [(0, 0), (0, 1), (0, 2), (0, 3), (1, 0)] && t.reg 15 == 0 &&
      ran (stepWord t 0xD002) (fun u => litAre u [] && u.reg 15 == 1)) = true := by decide

/-- G9: nothing is drawn when a byte lies outside memory. -/
theorem test_drw_fault :
    ran (stepWord (withRegs [(15, 7)] { State.reset with i := 0xFFE }) 0xD003) (fun t =>
      errIs t .outOfBounds 0x200 0xD003 0x1000 && t.pc == 0x202 && litAre t [] && t.reg 15 == 7) = true := by
  decide

/-- G8: no rows, no fault, VF cleared. -/
theorem test_drw_no_rows :
    ran (stepWord (withRegs [(15, 1)] { State.reset with i := 0x1003 }) 0xD010) (fun t =>
      litAre t [] && t.reg 15 == 0 && decide (t.rs = .running)) = true := by decide

/-- G13 and G14. -/
theorem test_ldF :
    ran (stepWord (withRegs [(1, 5)] .reset) 0xF129) (fun t => t.i == 0x69) = true ∧
    ran (stepWord (withRegs [(1, 0x1A)] .reset) 0xF129) (fun t => t.i == 0x82) = true := by decide

/-! ## Keypad (K1 to K14) -/

/-- K1, K6 and K3. -/
theorem test_skp :
    ran (stepWord (withRegs [(5, 0x0A)] { State.reset with keys := 0x0400 }) 0xE59E) (fun t =>
      t.pc == 0x204) = true ∧
    ran (stepWord (withRegs [(5, 0x1A)] { State.reset with keys := 0x0400 }) 0xE59E) (fun t =>
      t.pc == 0x204) = true ∧
    ran (stepWord (withRegs [(5, 0x0A)] { State.reset with keys := 0xFBFF }) 0xE59E) (fun t =>
      t.pc == 0x202) = true := by decide

/-- K4 and K5. -/
theorem test_sknp :
    ran (stepWord (withRegs [(5, 0x0A)] { State.reset with keys := 0x0400 }) 0xE5A1) (fun t =>
      t.pc == 0x202) = true ∧
    ran (stepWord (withRegs [(5, 0x0A)] .reset) 0xE5A1) (fun t => t.pc == 0x204) = true := by decide

/-- K7. -/
theorem test_ldVxK :
    ran (stepWord { State.reset with keys := 2 } 0xF30A) (fun t =>
      decide (t.rs = .waitingForKey) && t.waitX == 3 && t.prevKeys == 2 && t.pc == 0x202 && t.reg 3 == 0) =
      true := by decide

/-- A core that waits for a key to go into `V[3]`, key 1 being down. -/
def waitingState : State :=
  { State.reset with rs := .waitingForKey, waitX := 3, prevKeys := 2, pc := 0x202, loadOpen := false }

/-- K8 and K9: a held key, then no key. -/
theorem test_wait_goes_on :
    ran (stepEvent waitingState (.pass 2 0)) (fun t =>
      decide (t.rs = .waitingForKey) && t.prevKeys == 2) = true ∧
    ran (stepEvent waitingState (.pass 0 0)) (fun t =>
      decide (t.rs = .waitingForKey) && t.prevKeys == 0) = true := by decide

/-- K12: key 4 goes down while key 1 is held; `PREV_KEYS` is kept (R173, as in P8's pass 4). -/
theorem test_wait_ends :
    ran (stepEvent waitingState (.pass 0x12 0)) (fun t =>
      decide (t.rs = .running) && t.reg 3 == 4 && t.pc == 0x202 && t.prevKeys == 2) = true := by decide

/-! ## Index register and memory (M1 to M24) -/

/-- M2. -/
theorem test_ldI : ran (stepWord .reset 0xAFFF) (fun t => t.i == 0xFFF) = true := by decide

/-- M3 and M8. -/
theorem test_addI :
    ran (stepWord (withRegs [(2, 5), (15, 9)] { State.reset with i := 0xFFE }) 0xF21E) (fun t =>
      t.i == 0x1003 && t.reg 15 == 9) = true ∧
    ran (stepWord (withQuirks otherQuirks (withRegs [(2, 1)] { State.reset with i := 0xFFFF })) 0xF21E)
      (fun t => t.i == 0 && t.reg 15 == 1) = true := by decide

/-- M9: VF is the addend and takes the flag. -/
theorem test_addI_vf :
    ran (stepWord (withQuirks otherQuirks (withRegs [(15, 3)] { State.reset with i := 0xFFE })) 0xFF1E)
      (fun t => t.i == 0x1001 && t.reg 15 == 1) = true := by decide

/-- M10. -/
theorem test_ldB :
    ran (stepWord (withRegs [(4, 0x9C)] { State.reset with i := 0x300 }) 0xF433) (fun t =>
      t.mem.readBytes 0x300 4 == [1, 5, 6, 0]) = true := by decide

/-- M13: no byte is written. -/
theorem test_ldB_fault :
    ran (stepWord (withRegs [(0, 0xFF)] { State.reset with i := 0xFFE }) 0xF033) (fun t =>
      errIs t .outOfBounds 0x200 0xF033 0x1000 && t.mem.readBytes 0xFFE 2 == [0, 0]) = true := by decide

/-- M15 and M16. -/
theorem test_ldMemVx :
    ran (stepWord (withRegs [(0, 0x11), (1, 0x22), (2, 0x33)] { State.reset with i := 0x400 }) 0xF255)
      (fun t => t.mem.readBytes 0x400 4 == [0x11, 0x22, 0x33, 0] && t.i == 0x400) = true ∧
    ran (stepWord (withQuirks otherQuirks
      (withRegs [(0, 0x11), (1, 0x22), (2, 0x33)] { State.reset with i := 0x400 })) 0xF255)
      (fun t => t.mem.readBytes 0x400 4 == [0x11, 0x22, 0x33, 0] && t.i == 0x403) = true := by decide

/-- M18 (the last 16 bytes) and M19. -/
theorem test_ldMemVx_edge :
    ran (stepWord (withQuirks otherQuirks (withRegs [(15, 0x0F)] { State.reset with i := 0xFF0 })) 0xFF55)
      (fun t => t.mem.read 0xFFF == 0x0F && t.i == 0x1000 && decide (t.rs = .running)) = true ∧
    ran (stepWord (withRegs [(0, 1)] { State.reset with i := 0xFF1 }) 0xFF55) (fun t =>
      errIs t .outOfBounds 0x200 0xFF55 0x1000 && t.mem.read 0xFF1 == 0 && t.i == 0xFF1) = true := by decide

/-- M21, with the register after the last one left alone. -/
theorem test_ldVxMem :
    ran (stepWord (withRegs [(2, 0x77)] (withBytes 0x400 [0xAA, 0xBB, 0xCC] { State.reset with i := 0x400 }))
      0xF165) (fun t => t.reg 0 == 0xAA && t.reg 1 == 0xBB && t.reg 2 == 0x77 && t.i == 0x400) = true := by
  decide

/-- M22. -/
theorem test_ldVxMem_font :
    ran (stepWord { State.reset with i := 0x50 } 0xFF65) (fun t =>
      t.v.toList == [0xF0, 0x90, 0x90, 0x90, 0xF0, 0x20, 0x60, 0x20] ++
        [0x20, 0x70, 0xF0, 0x10, 0xF0, 0x80, 0xF0, 0xF0]) = true := by decide

/-! ## Timers (T1 to T9) -/

/-- T3. -/
theorem test_ldVxDT :
    ran (stepWord { State.reset with dt := 0x2A } 0xF407) (fun t => t.reg 4 == 0x2A && t.dt == 0x2A) = true := by
  decide

/-- T1. -/
theorem test_ldDTVx :
    ran (stepWord (withRegs [(3, 0x3C)] .reset) 0xF315) (fun t => t.dt == 0x3C && t.st == 0) = true := by decide

/-- T2 and T4. -/
theorem test_ldSTVx :
    ran (stepWord (withRegs [(3, 0x3C)] .reset) 0xF318) (fun t => t.st == 0x3C && t.audioOn) = true ∧
    ran (stepWord { State.reset with st := 5 } 0xF318) (fun t => t.st == 0 && !t.audioOn) = true := by decide

/-- T5 and T7. -/
theorem test_tick :
    ran (stepEvent { State.reset with dt := 1 } .tick) (fun t => t.dt == 0 && t.st == 0) = true ∧
    ran (stepEvent { State.reset with dt := 0xFF, st := 0xFF } .tick) (fun t =>
      t.dt == 0xFE && t.st == 0xFE) = true := by decide

/-! ## Witnesses: a state that meets the hypotheses of each statement -/

/-- A state about to run the word `w`, the keys and the random byte given. -/
def aboutTo (s : State) (w : Nat) (keys : BitVec 16) (rnd : Byte) : State :=
  { s.withFetchWord 16 w with pending := [.pass keys rnd] }

/-- The state that its Pass finds. -/
def found (s : State) : State := { s with pending := [] }

/-- A halted core with an error recorded. -/
def haltedState : State :=
  { takeFault .unknownOpcode 0x200 0 0 .reset with pc := 0x202, loadOpen := false }

/-- The invariant of a state whose stack is all zero. -/
theorem inv_of {s : State} (h1 : s.mem.wf = true) (h2 : s.pc.toNat ≤ 0x10FE)
    (h3 : s.stack = Vector.replicate 16 0) (h4 : s.rs = .halted ↔ s.err.kind ≠ .none)
    (h5 : s.err.kind = .none → s.err = ErrorRecord.clear)
    (h6 : if s.err.kind = .outOfBounds then 4096 ≤ s.err.addr.toNat else s.err.addr = 0)
    (h7 : s.loadOpen = true ∨ s.loadOk = false → s.rs = .running ∧ s.pc = 0x0200) : s.Inv :=
  ⟨h1, h2, fun k => by simp [h3], h4, h5, h6, h7⟩

theorem witness_reset_inv : State.reset.Inv :=
  inv_of (by decide) (by decide) rfl (by decide) (by decide) (by decide) (by decide)

theorem witness_halted_inv : haltedState.Inv :=
  inv_of (by decide) (by decide) rfl (by decide) (by decide) (by decide) (by decide)

theorem witness_DecodeOfEncodeIsInstruction : (Instr.drw 1 2 0xA).wellFormed = true := by decide

theorem witness_EncodeOfDecodeIsWord : decode 0xD12A#16 = .ok (.drw 1 2 0xA) := by decide

theorem witness_DecoderFollowsOpcodeTable :
    decode 0x00E0#16 = .ok .cls ∧ (∃ r ∈ opcodeTable, (0x00E0#16 &&& r.mask) = r.fixed) :=
  ⟨by decide, ⟨_, List.mem_cons_self, by decide⟩⟩

theorem witness_ResetEventLeavesResetValues :
    { haltedState with pending := [.reset otherQuirks, .tick] }.pending = .reset otherQuirks :: [.tick] := rfl

/-- The longest program that is copied, the shortest that is refused, and the empty one. -/
theorem witness_LoadCopiesOrRefuses (n : Nat) (_ : n = 0 ∨ n = 3584 ∨ n = 3585) :
    ∃ (s : State) (bytes : List Byte) (rest : List Event), bytes.length = n ∧
      s.pending = .load bytes :: rest ∧ s.loadOpen = true ∧ s.mem.wf = true :=
  ⟨{ State.reset with pending := [.load (List.replicate n 0)] }, List.replicate n 0, [], by simp, rfl, rfl,
    witness_reset_inv.memory⟩

/-- A Pass after a refused Load, a Load that comes too late, and a Pass and a Load that are taken. -/
theorem witness_RefusedLoadStopsPasses :
    (∃ s s', nextEvent s = (.pass 0 0, s') ∧ s'.loadOk = false) ∧
    (∃ s s', nextEvent s = (.load [0], s') ∧ s'.loadOpen = false) ∧
    (∃ s t, nextEvent s = (.pass 0 0, found s) ∧ step s = .next t) ∧
    (∃ s t, nextEvent s = (.load [0], found s) ∧ step s = .next t) :=
  ⟨⟨{ State.reset with loadOk := false, pending := [.pass 0 0] }, _, rfl, rfl⟩,
   ⟨{ State.reset with loadOpen := false, pending := [.load [0]] }, _, rfl, rfl⟩,
   ⟨aboutTo .reset 0x6AFF 0 0, _, rfl, rfl⟩,
   ⟨{ State.reset with pending := [.load [0]] }, _, rfl, rfl⟩⟩

theorem witness_NextEventIsPendingOrFreePass :
    { State.reset with pending := [.tick, .frame] }.pending = .tick :: [.frame] ∧
    State.reset.pending = [] ∧ ∀ j, { State.reset with clock := j }.pending = [] := ⟨rfl, rfl, fun _ => rfl⟩

theorem witness_passDue :
    PassDue (aboutTo .reset 0x8124 3 7) 3 7 (found (aboutTo .reset 0x8124 3 7)) .running := ⟨rfl, rfl, rfl⟩

theorem witness_StepExecutesDecodedInstruction :
    PassDue (aboutTo .reset 0x8124 3 7) 3 7 (found (aboutTo .reset 0x8124 3 7)) .running ∧
    DecodesAtPc (found (aboutTo .reset 0x8124 3 7)) (.addReg 1 2) :=
  ⟨⟨rfl, rfl, rfl⟩, by decide, by decide⟩

/-- The last address from which a word can be fetched. -/
theorem witness_StepExecutesDecodedInstruction_last :
    PassDue (aboutTo { State.reset with pc := 0xFFE } 0x6000 0 0) 0 0
      (found (aboutTo { State.reset with pc := 0xFFE } 0x6000 0 0)) .running ∧
    DecodesAtPc (found (aboutTo { State.reset with pc := 0xFFE } 0x6000 0 0)) (.ldImm 0 0) ∧
    (found (aboutTo { State.reset with pc := 0xFFE } 0x6000 0 0)).pc = 0xFFE :=
  ⟨⟨rfl, rfl, rfl⟩, ⟨by decide, by decide⟩, rfl⟩

theorem witness_TickDecrementsTimers :
    ({ waitingState with pending := [.tick] }.pending = .tick :: [] ∧
      { waitingState with pending := [.tick] }.rs ≠ .halted) ∧
    ({ State.reset with pending := [.tick] }.pending = .tick :: [] ∧
      { State.reset with pending := [.tick] }.rs ≠ .halted) := by decide

theorem witness_TicksReachZeroAndStay :
    { State.reset with dt := 10, pending := List.replicate 11 .tick }.pending =
      List.replicate 11 .tick ++ [] ∧
    { State.reset with dt := 10, pending := List.replicate 11 .tick }.rs ≠ .halted := by decide

theorem witness_PortsShowTheState :
    { State.reset with pending := [.frame] }.pending = .frame :: [] ∧
    State.reset.rs = .running ∧ waitingState.rs = .waitingForKey ∧ haltedState.rs = .halted ∧
    State.reset.err.kind = .none ∧ haltedState.err.kind = .unknownOpcode ∧
    (takeFault .stackOverflow 0 0 0 .reset).err.kind = .stackOverflow ∧
    (takeFault .stackUnderflow 0 0 0 .reset).err.kind = .stackUnderflow ∧
    (takeFault .outOfBounds 0 0 0x1000 .reset).err.kind = .outOfBounds := by decide

/-- The lowest and the highest legal font base. -/
theorem witness_ResetStateHasInvariant : 0 + 80 ≤ 0x200 ∧ 0x1B0 + 80 ≤ 0x200 := by decide

theorem witness_StepKeepsInvariant :
    ∃ t, (aboutTo .reset 0x8124 0 0).Inv ∧ step (aboutTo .reset 0x8124 0 0) = .next t :=
  ⟨_, inv_of (by decide) (by decide) rfl (by decide) (by decide) (by decide) (by decide), rfl⟩

/-- Every transition happens: none, to the wait, out of the wait, to Halted, and Reset. -/
theorem witness_RunStateTransitions :
    (∃ t, nextEvent (aboutTo .reset 0x8124 0 0) = (.pass 0 0, found (aboutTo .reset 0x8124 0 0)) ∧
      step (aboutTo .reset 0x8124 0 0) = .next t ∧ t.rs = .running) ∧
    (∃ t, step (aboutTo .reset 0xF30A 0 0) = .next t ∧ t.rs = .waitingForKey) ∧
    (∃ t, step { waitingState with pending := [.pass 0x10 0] } = .next t ∧ t.rs = .running) ∧
    (∃ t, step (aboutTo .reset 0x0000 0 0) = .next t ∧ t.rs = .halted) ∧
    (∃ t, step { haltedState with pending := [.reset otherQuirks] } = .next t ∧ t.rs = .running) :=
  ⟨⟨_, rfl, rfl, rfl⟩, ⟨_, rfl, rfl⟩, ⟨_, rfl, rfl⟩, ⟨_, rfl, rfl⟩, ⟨_, rfl, rfl⟩⟩

/-- A halted state with the invariant, for any event that comes. -/
theorem witness_HaltedIsLeftByResetOnly (e : Event) :
    { haltedState with pending := [e] }.Inv ∧ { haltedState with pending := [e] }.rs = .halted ∧
    nextEvent { haltedState with pending := [e] } = (e, { haltedState with pending := [] }) :=
  have h := witness_halted_inv
  ⟨⟨h.memory, h.pc, h.stack, h.halted, h.noError, h.errAddr, h.loaded⟩, rfl, rfl⟩

/-- A fault of each kind, a range that just fits, and an instruction that cannot fault. -/
theorem witness_ExecutionFaultsExactly :
    executionFault .ret .reset = some (.stackUnderflow, 0) ∧
    executionFault (.call 0) { State.reset with sp := 16 } = some (.stackOverflow, 0) ∧
    executionFault (.drw 0 0 3) { State.reset with i := 0xFFE } = some (.outOfBounds, 0x1000) ∧
    executionFault (.drw 0 0 2) { State.reset with i := 0xFFE } = none ∧
    executionFault (.ldB 0) { State.reset with i := 0x1003 } = some (.outOfBounds, 0x1003) ∧
    executionFault (.addReg 1 2) .reset = none := by decide

/-- The premise of the rules about every instruction: `exec` answers a next state. -/
theorem witness_exec_next : ∃ t, exec (.drw 1 2 5) .reset = .next t := ⟨_, rfl⟩

theorem witness_OnlyListedRegistersChange : ∃ t, exec (.addReg 1 2) .reset = .next t := ⟨_, rfl⟩

theorem witness_FlagWritesAreZeroOrOne :
    ∃ t, writesFlag otherQuirks (.addI 2) = true ∧
      executionFault (.addI 2) { State.reset with quirks := otherQuirks } = none ∧
      exec (.addI 2) { State.reset with quirks := otherQuirks } = .next t := ⟨_, rfl, rfl, rfl⟩

theorem witness_OnlyIndexInstructionsWriteIndex :
    ∃ t, exec (.ldMemVx 2) .reset = .next t ∧ writesIndex State.reset.quirks (.ldMemVx 2) = false :=
  ⟨_, rfl, rfl⟩

theorem witness_EachDeviceHasItsInstructions :
    (∃ t, exec (.ldImm 1 2) .reset = .next t) ∧ (∀ nnn, Instr.ldImm 1 2 ≠ .call nnn) ∧
    Instr.ldImm 1 2 ≠ .ret ∧ (∀ x, Instr.ldImm 1 2 ≠ .ldDTVx x) ∧ (∀ x, Instr.ldImm 1 2 ≠ .ldSTVx x) ∧
    Instr.ldImm 1 2 ≠ .cls ∧ (∀ x y n, Instr.ldImm 1 2 ≠ .drw x y n) ∧
    (∀ x, Instr.ldImm 1 2 ≠ .ldVxK x) := by
  refine ⟨⟨_, rfl⟩, ?_⟩
  simp

theorem witness_InstructionsLeaveInputsAndStraps : ∃ t, exec (.ldVxK 3) .reset = .next t := ⟨_, rfl⟩

/-- A store that fits, one that faults, and an instruction that stores nothing. -/
theorem witness_OnlyStoredBytesChange :
    State.reset.mem.wf = true ∧ (∃ t, exec (.ldB 4) .reset = .next t) ∧
    (∃ t, exec (.ldB 4) { State.reset with i := 0xFFE } = .next t) ∧
    executionFault (.ldB 4) { State.reset with i := 0xFFE } ≠ none ∧
    (∃ t, exec (.ldI 4) .reset = .next t) :=
  ⟨by decide, ⟨_, rfl⟩, ⟨_, rfl⟩, by decide, ⟨_, rfl⟩⟩

theorem witness_NonControlAdvancesPcByTwo :
    ∃ t, PassDue (aboutTo .reset 0x8124 3 7) 3 7 (found (aboutTo .reset 0x8124 3 7)) .running ∧
      DecodesAtPc (found (aboutTo .reset 0x8124 3 7)) (.addReg 1 2) ∧
      transfersControl (.addReg 1 2) = false ∧ step (aboutTo .reset 0x8124 3 7) = .next t :=
  ⟨_, ⟨rfl, rfl, rfl⟩, ⟨by decide, by decide⟩, rfl, rfl⟩

/-- The lowest and the highest `PC` that cannot be fetched from. -/
theorem witness_FetchOutOfBoundsHalts (pc : Word) (_ : pc = 0xFFF ∨ pc = 0xFFFF) :
    PassDue { State.reset with pc := pc, pending := [.pass 0 0] } 0 0 { State.reset with pc := pc } .running ∧
    4095 < pc.toNat + 1 := by
  refine ⟨⟨rfl, rfl, rfl⟩, ?_⟩
  rename_i h
  rcases h with rfl | rfl <;> decide

theorem witness_UnknownOpcodeHalts :
    PassDue (aboutTo .reset 0x8128 0 0) 0 0 (found (aboutTo .reset 0x8128 0 0)) .running ∧
    (found (aboutTo .reset 0x8128 0 0)).pc.toNat + 1 ≤ 4095 ∧
    (0x8128#16).toNat = ((found (aboutTo .reset 0x8128 0 0)).mem.read 0x200).toNat * 256 +
      ((found (aboutTo .reset 0x8128 0 0)).mem.read (0x200 + 1)).toNat ∧
    (∀ r ∈ opcodeTable, (0x8128#16 &&& r.mask) ≠ r.fixed) :=
  ⟨⟨rfl, rfl, rfl⟩, by decide, by decide, by decide⟩

/-- An empty stack, one free entry, and a full stack. -/
theorem witness_CallPushesOrOverflows :
    State.reset.sp.val < 16 ∧ { State.reset with sp := 15 }.sp.val < 16 ∧
    { State.reset with sp := 16 }.sp.val = 16 := by decide

/-- One entry, a full stack, and an empty one. -/
theorem witness_ReturnPopsOrUnderflows :
    { State.reset with sp := 1 }.sp.val = (0 : Fin 16).val + 1 ∧
    { State.reset with sp := 16 }.sp.val = (15 : Fin 16).val + 1 ∧ State.reset.sp.val = 0 := by decide

theorem witness_ReturnUndoesCall : { State.reset with sp := 15 }.sp.val < 16 := by decide

theorem witness_SeventeenthNestedCallOverflows :
    State.reset.rs = .running ∧ State.reset.sp.val = 0 ∧
    (List.replicate 16 (0x200 : Addr12)).length ≤ 16 ∧ (List.replicate 16 (0x200 : Addr12)).length = 16 := by
  decide

/-- A jump to itself at 0x200, with a Pass pending, and with no event pending and both timers running. -/
theorem witness_ParkedCoreStaysParked :
    PassDue (aboutTo .reset 0x1200 0 0) 0 0 (found (aboutTo .reset 0x1200 0 0)) .running ∧
    (found (aboutTo .reset 0x1200 0 0)).Parked ∧
    State.Parked { State.reset.withFetchWord 16 0x1200 with dt := 3, st := 0xFF } ∧
    { State.reset.withFetchWord 16 0x1200 with dt := 3, st := 0xFF }.loadOk = true ∧
    { State.reset.withFetchWord 16 0x1200 with dt := 3, st := 0xFF }.pending = [] :=
  ⟨⟨rfl, rfl, rfl⟩, ⟨rfl, 0x200, rfl, rfl⟩, ⟨rfl, 0x200, rfl, rfl⟩, rfl, rfl⟩

/-- Both settings of `Q_JUMP`, the offset register being V[15]. -/
theorem witness_JumpWithOffset :
    State.reset.quirks.jump = false ∧ { State.reset with quirks := otherQuirks }.quirks.jump = true ∧
    (15 : Nibble).toNat = (0xFFF : Addr12).toNat / 256 := by decide

/-- The clauses about `V[x]` need a destination other than VF. -/
theorem witness_destination_other_than_vf : (14 : Nibble) ≠ vf := by decide

/-- Both settings of `Q_SHIFT`. -/
theorem witness_ShiftsSetBitShiftedOut :
    (0x05 : Byte) = (if (withRegs [(1, 5), (2, 0xF0)] State.reset).quirks.shift = true
      then (withRegs [(1, 5), (2, 0xF0)] State.reset).reg 1
      else (withRegs [(1, 5), (2, 0xF0)] State.reset).reg 2) ∧
    (0xF0 : Byte) = (if (withQuirks otherQuirks (withRegs [(1, 5), (2, 0xF0)] State.reset)).quirks.shift = true
      then (withQuirks otherQuirks (withRegs [(1, 5), (2, 0xF0)] State.reset)).reg 1
      else (withQuirks otherQuirks (withRegs [(1, 5), (2, 0xF0)] State.reset)).reg 2) := by decide

/-- No rows at all with `I` outside memory, and rows that end at the last byte. -/
theorem witness_DrawTogglesCoveredPixels :
    ((0 : Nibble).toNat = 0 ∨ { State.reset with i := 0x1003 }.i.toNat + (0 : Nibble).toNat ≤ 4096) ∧
    ((2 : Nibble).toNat = 0 ∨ { State.reset with i := 0xFFE }.i.toNat + (2 : Nibble).toNat ≤ 4096) := by decide

/-- A sprite pixel on the screen, in a clear buffer, drawn twice. -/
theorem witness_DrawTwiceRestoresDisplay :
    ∃ t u, ((5 : Nibble).toNat = 0 ∨ { State.reset with i := 0x50 }.i.toNat + (5 : Nibble).toNat ≤ 4096) ∧
      exec (.drw 0 0 5) { State.reset with i := 0x50 } = .next t ∧
      t.reg 0 = State.reg { State.reset with i := 0x50 } 0 ∧ exec (.drw 0 0 5) t = .next u ∧
      (∀ r c, Display.pixel State.reset.fb r c = false) ∧
      SpriteCovers { State.reset with i := 0x50 } 0 0 5 0 0 :=
  ⟨_, _, by decide, rfl, by decide, rfl, by simp [Display.pixel, State.reset, State.resetWith],
    0, by decide, 0, by decide, by decide, (⟨rfl, rfl⟩ : 0 % 32 + 0 = 0 ∧ 0 % 64 + 0 = 0)⟩

/-- The lowest and the highest legal font base. -/
theorem witness_FontAddress :
    (State.resetWith otherQuirks 0).mem.fontBase + 80 ≤ 0x200 ∧
    (State.resetWith otherQuirks 0x1B0).mem.fontBase + 80 ≤ 0x200 := by decide

/-- A held key alone, and a new key. -/
theorem witness_WaitingPassPollsKeys :
    (PassDue { waitingState with pending := [.pass 2 0] } 2 0 waitingState .waitingForKey ∧
      (2 : BitVec 16) &&& ~~~waitingState.prevKeys = 0) ∧
    (PassDue { waitingState with pending := [.pass 0x12 0] } 0x12 0 waitingState .waitingForKey ∧
      (0x12 : BitVec 16) &&& ~~~waitingState.prevKeys ≠ 0) :=
  ⟨⟨⟨rfl, rfl, rfl⟩, by decide⟩, ⟨rfl, rfl, rfl⟩, by decide⟩

/-- Both settings of `Q_ADDI_FLAG`. -/
theorem witness_IndexSetAndAdd :
    State.reset.quirks.addIFlag = false ∧ { State.reset with quirks := otherQuirks }.quirks.addIFlag = true := by
  decide

/-- The last three bytes of memory. -/
theorem witness_BcdStoresDecimalDigits :
    { State.reset with i := 0xFFD }.mem.wf = true ∧ { State.reset with i := 0xFFD }.i.toNat + 2 ≤ 4095 := by
  decide

/-- All sixteen registers in the last sixteen bytes, and one register in the last byte. -/
theorem witness_DumpStoresRegisters :
    { State.reset with i := 0xFF0 }.mem.wf = true ∧
    { State.reset with i := 0xFF0 }.i.toNat + (15 : Nibble).toNat ≤ 4095 ∧
    { State.reset with i := 0xFFF }.i.toNat + (0 : Nibble).toNat ≤ 4095 := by decide

theorem witness_LoadReadsRegisters :
    { State.reset with i := 0xFF0 }.i.toNat + (15 : Nibble).toNat ≤ 4095 ∧
    { State.reset with i := 0xFFF }.i.toNat + (0 : Nibble).toNat ≤ 4095 := by decide

theorem witness_LoadAfterDumpRestoresRegisters :
    ∃ t u, State.reset.mem.wf = true ∧ { State.reset with i := 0xFF0 }.i.toNat + (15 : Nibble).toNat ≤ 4095 ∧
      exec (.ldMemVx 15) { State.reset with i := 0xFF0 } = .next t ∧
      exec (.ldVxMem 15) { withRegs [(3, 9)] t with i := 0xFF0 } = .next u :=
  ⟨_, _, by decide, by decide, rfl, rfl⟩

/-- P7: 12 08 is stored at 0x208 where `PC` points. -/
def selfModifying : State :=
  withRegs [(0, 0x12), (1, 0x08)] { State.reset with i := 0x208, pc := 0x208, pending := [.pass 0 0] }

theorem witness_StoreIsSeenByNextFetch :
    ∃ t, selfModifying.mem.wf = true ∧ selfModifying.rs = .running ∧ selfModifying.loadOk = true ∧
      selfModifying.i.toNat + (1 : Nibble).toNat ≤ 4095 ∧ (1 : Nibble).toNat = (0 : Nibble).toNat + 1 ∧
      (1 : Nibble).toNat ≤ (1 : Nibble).toNat ∧
      selfModifying.pc.toNat = selfModifying.i.toNat + (0 : Nibble).toNat ∧
      selfModifying.pending = .pass 0 0 :: [] ∧
      decodeBytes [selfModifying.reg 0, selfModifying.reg 1] = .ok (.jp 0x208, []) ∧
      exec (.ldMemVx 1) selfModifying = .next t :=
  ⟨_, by decide, rfl, rfl, by decide, by decide, by decide, by decide, rfl, by decide, rfl⟩

/-- Two ways to the same memory: a byte written, and a byte written over another and back. -/
theorem witness_MemoriesThatReadAlikeAreEqual :
    (State.reset.mem.write 0x300 7).wf = true ∧ (State.reset.mem.write 0x300 7).fontBase = State.reset.mem.fontBase ∧
    ((State.reset.mem.write 0x301 9).write 0x301 0).wf = true ∧
    (State.reset.mem.write 0x301 9).write 0x301 0 = State.reset.mem := by decide

end Sys2Proof.Tests
end

section
/-! Proofs of the statements about the fields of a word and about
re-encoding what was decoded (30_encoding.md). -/

namespace Sys2Proof

/-! ### A word rebuilt from the fixed fields of its row and its operands (R92)

The shape `encode` meets: the fields that the decoder has dispatched on stand as constants, the others
are still read from the word. -/

section
variable {w : Word} {op n : Nibble} {nn : Byte}

theorem wordNNN_of_op (hop : fieldOp w = op) : wordNNN op (fieldNNN w) = w := by
  rw [← hop, wordNNN_fields]

theorem wordXNN_of_op (hop : fieldOp w = op) : wordXNN op (fieldX w) (fieldNN w) = w := by
  rw [← hop, wordXNN_fields]

theorem wordXNN_of_op_nn (hop : fieldOp w = op) (hnn : fieldNN w = nn) :
    wordXNN op (fieldX w) nn = w := by
  rw [← hnn, wordXNN_of_op hop]

theorem wordXYN_of_op (hop : fieldOp w = op) :
    wordXYN op (fieldX w) (fieldY w) (fieldN w) = w := by
  rw [← hop, wordXYN_fields]

theorem wordXYN_of_op_n (hop : fieldOp w = op) (hn : fieldN w = n) :
    wordXYN op (fieldX w) (fieldY w) n = w := by
  rw [← hn, wordXYN_of_op hop]
end

/-! ### Re-encoding in the classes with a second dispatch (R101) -/

section
variable {w : Word} {i : Instr}

theorem encode_of_decodeClass0 (h : decodeClass0 w = .ok i) : encode i = w := by
  unfold decodeClass0 at h
  split at h
  · next hw => cases h; exact hw.symm
  · split at h
    · next hw => cases h; exact hw.symm
    · cases h

theorem encode_of_decodeClass8 (hop : fieldOp w = 0x8#4) (h : decodeClass8 w = .ok i) :
    encode i = w := by
  unfold decodeClass8 at h
  split at h
  case h_10 => cases h
  all_goals
    next hn => cases h; exact wordXYN_of_op_n hop hn

theorem encode_of_decodeClassE (hop : fieldOp w = 0xE#4) (h : decodeClassE w = .ok i) :
    encode i = w := by
  unfold decodeClassE at h
  split at h
  case h_3 => cases h
  all_goals
    next hnn => cases h; exact wordXNN_of_op_nn hop hnn

theorem encode_of_decodeClassF (hop : fieldOp w = 0xF#4) (h : decodeClassF w = .ok i) :
    encode i = w := by
  unfold decodeClassF at h
  split at h
  case h_10 => cases h
  all_goals
    next hnn => cases h; exact wordXNN_of_op_nn hop hnn

/-- What classes 5 and 9 answer: one instruction, for the fourth nibble 0 only. -/
theorem encode_of_ite_fieldN_eq_zero {op : Nibble} {j : Instr}
    (hop : fieldOp w = op) (hj : encode j = wordXYN op (fieldX w) (fieldY w) 0x0#4)
    (h : (if fieldN w = 0x0#4 then Except.ok j else .error (DecodeError.unknownOpcode w)) = .ok i) :
    encode i = w := by
  split at h
  · next hn => cases h; exact hj.trans (wordXYN_of_op_n hop hn)
  · cases h

/-- Re-encoding what a word decodes to gives the word (R109), class by class. -/
theorem encode_of_decode (h : decode w = .ok i) : encode i = w := by
  rcases decode_cases w with ⟨hop, hd⟩ | ⟨hop, hd⟩ | ⟨hop, hd⟩ | ⟨hop, hd⟩ | ⟨hop, hd⟩ | ⟨hop, hd⟩ |
    ⟨hop, hd⟩ | ⟨hop, hd⟩ | ⟨hop, hd⟩ | ⟨hop, hd⟩ | ⟨hop, hd⟩ | ⟨hop, hd⟩ | ⟨hop, hd⟩ | ⟨hop, hd⟩ |
    ⟨hop, hd⟩ | ⟨hop, hd⟩ <;> rw [hd] at h
  · exact encode_of_decodeClass0 h
  · cases h; exact wordNNN_of_op hop
  · cases h; exact wordNNN_of_op hop
  · cases h; exact wordXNN_of_op hop
  · cases h; exact wordXNN_of_op hop
  · exact encode_of_ite_fieldN_eq_zero hop rfl h
  · cases h; exact wordXNN_of_op hop
  · cases h; exact wordXNN_of_op hop
  · exact encode_of_decodeClass8 hop h
  · exact encode_of_ite_fieldN_eq_zero hop rfl h
  · cases h; exact wordNNN_of_op hop
  · cases h; exact wordNNN_of_op hop
  · cases h; exact wordXNN_of_op hop
  · cases h; exact wordXYN_of_op hop
  · exact encode_of_decodeClassE hop h
  · exact encode_of_decodeClassF hop h
end

/-! ### The overlap of the fields (R91) -/

theorem toNat_fieldNN_eq_fieldY_fieldN (w : Word) :
    (fieldNN w).toNat = (fieldY w).toNat * 16 + (fieldN w).toNat := by
  rw [toNat_fieldNN, toNat_fieldY, toNat_fieldN]
  omega

theorem toNat_fieldNNN_eq_fieldX_fieldNN (w : Word) :
    (fieldNNN w).toNat = (fieldX w).toNat * 256 + (fieldNN w).toNat := by
  rw [toNat_fieldNNN, toNat_fieldX, toNat_fieldNN]
  omega

/-! ### The statements -/

/-- Settles O3, by the opcode class of the word: each class leaves the operands in the fields that the
format puts back. -/
theorem encodeOfDecodeIsWord : Obligations.EncodeOfDecodeIsWord :=
  fun _ _ => encode_of_decode

/-- Settles O1, each field by its value as a number, then the two overlap equations. -/
theorem fieldsOfAWord : Obligations.FieldsOfAWord := fun w =>
  ⟨toNat_fieldOp w, toNat_fieldX w, toNat_fieldY w, toNat_fieldN w, toNat_fieldNN w, toNat_fieldNNN w,
    toNat_fieldNN_eq_fieldY_fieldN w, toNat_fieldNNN_eq_fieldX_fieldNN w⟩

end Sys2Proof
end

section
/-! Proof of the statement about the jump (40_control_flow.md). -/

namespace Sys2Proof.Machine

/-- The frame of every instruction that only redirects control. -/
theorem onlyPc_setPc (s : State) (a : Word) : OnlyPc s (s.setPc a) :=
  ⟨fun r _ => reg_setPc s a r, fun _ => rfl, rfl⟩

/-- `exec` unfolded for 1NNN: the target takes the place of the advanced `PC` (R121). -/
theorem exec_jp (nnn : Addr12) (s : State) : exec (.jp nnn) s = .next (s.setPc (zext16 nnn)) := rfl

/-- Settles O31: the next state is `setPc` of the target, and zero-extending 12 bits to 16 keeps
their value. -/
theorem jumpSetsPc : Obligations.JumpSetsPc := fun nnn s =>
  ⟨rfl, s.setPc (zext16 nnn), exec_jp nnn s, toNat_zext16 (by decide) nnn, onlyPc_setPc s _⟩

end Sys2Proof.Machine
end

section
/-! Proof of the statement about the immediate load (41_register_alu.md). -/

namespace Sys2Proof.Machine

/-- The frame of every instruction whose only effect is one register, VF like any other. -/
theorem onlyRegs_setReg (s : State) (x : Nibble) (b : Byte) : OnlyRegs (· = x) s (s.setReg x b) :=
  ⟨fun r hr => by rw [reg_setReg, if_neg hr], fun _ => rfl, rfl⟩

/-- `exec` unfolded for 6XNN: the immediate byte goes to `V[x]` (R140). -/
theorem exec_ldImm (x : Nibble) (nn : Byte) (s : State) :
    exec (.ldImm x nn) s = .next (s.setReg x nn) := rfl

/-- Settles O39: the next state is `setReg` of the immediate byte, which reads back from `V[x]`
and leaves the rest to the frame of `setReg`. -/
theorem loadImmediate : Obligations.LoadImmediate := fun x nn s =>
  ⟨rfl, s.setReg x nn, exec_ldImm x nn s, by rw [reg_setReg, if_pos rfl], onlyRegs_setReg s x nn⟩

end Sys2Proof.Machine
end

section
/-! Proofs of the statements about the decoder against the encoder and the opcode table
(30_encoding.md). -/

namespace Sys2Proof

/-! ### The per-instruction laws, for every instruction -/

/-- Decoding an encoded instruction gives it back, instruction by instruction (R100, R109). -/
theorem decode_encode : ∀ i : Instr, decode (encode i) = .ok i
  | .cls => Laws.RoundTrip.cls
  | .ret => Laws.RoundTrip.ret
  | .jp nnn => Laws.RoundTrip.jp nnn
  | .call nnn => Laws.RoundTrip.call nnn
  | .seImm x nn => Laws.RoundTrip.seImm x nn
  | .sneImm x nn => Laws.RoundTrip.sneImm x nn
  | .seReg x y => Laws.RoundTrip.seReg x y
  | .ldImm x nn => Laws.RoundTrip.ldImm x nn
  | .addImm x nn => Laws.RoundTrip.addImm x nn
  | .ldReg x y => Laws.RoundTrip.ldReg x y
  | .orReg x y => Laws.RoundTrip.orReg x y
  | .andReg x y => Laws.RoundTrip.andReg x y
  | .xorReg x y => Laws.RoundTrip.xorReg x y
  | .addReg x y => Laws.RoundTrip.addReg x y
  | .sub x y => Laws.RoundTrip.sub x y
  | .shr x y => Laws.RoundTrip.shr x y
  | .subn x y => Laws.RoundTrip.subn x y
  | .shl x y => Laws.RoundTrip.shl x y
  | .sneReg x y => Laws.RoundTrip.sneReg x y
  | .ldI nnn => Laws.RoundTrip.ldI nnn
  | .jpV0 nnn => Laws.RoundTrip.jpV0 nnn
  | .rnd x nn => Laws.RoundTrip.rnd x nn
  | .drw x y n => Laws.RoundTrip.drw x y n
  | .skp x => Laws.RoundTrip.skp x
  | .sknp x => Laws.RoundTrip.sknp x
  | .ldVxDT x => Laws.RoundTrip.ldVxDT x
  | .ldVxK x => Laws.RoundTrip.ldVxK x
  | .ldDTVx x => Laws.RoundTrip.ldDTVx x
  | .ldSTVx x => Laws.RoundTrip.ldSTVx x
  | .addI x => Laws.RoundTrip.addI x
  | .ldF x => Laws.RoundTrip.ldF x
  | .ldB x => Laws.RoundTrip.ldB x
  | .ldMemVx x => Laws.RoundTrip.ldMemVx x
  | .ldVxMem x => Laws.RoundTrip.ldVxMem x

/-- Settles O2, instruction by instruction; that `i` is well formed holds of every term (R93). -/
theorem decodeOfEncodeIsInstruction : Obligations.DecodeOfEncodeIsInstruction :=
  fun i _ => decode_encode i

/-- Every instruction's row is in the table and its word has the row's fixed bits (R92, R101). -/
theorem row_mem_and_encode_and_mask :
    ∀ i : Instr, i.row ∈ opcodeTable ∧ encode i &&& i.row.mask = i.row.fixed
  | .cls => Laws.FixedBits.cls
  | .ret => Laws.FixedBits.ret
  | .jp nnn => Laws.FixedBits.jp nnn
  | .call nnn => Laws.FixedBits.call nnn
  | .seImm x nn => Laws.FixedBits.seImm x nn
  | .sneImm x nn => Laws.FixedBits.sneImm x nn
  | .seReg x y => Laws.FixedBits.seReg x y
  | .ldImm x nn => Laws.FixedBits.ldImm x nn
  | .addImm x nn => Laws.FixedBits.addImm x nn
  | .ldReg x y => Laws.FixedBits.ldReg x y
  | .orReg x y => Laws.FixedBits.orReg x y
  | .andReg x y => Laws.FixedBits.andReg x y
  | .xorReg x y => Laws.FixedBits.xorReg x y
  | .addReg x y => Laws.FixedBits.addReg x y
  | .sub x y => Laws.FixedBits.sub x y
  | .shr x y => Laws.FixedBits.shr x y
  | .subn x y => Laws.FixedBits.subn x y
  | .shl x y => Laws.FixedBits.shl x y
  | .sneReg x y => Laws.FixedBits.sneReg x y
  | .ldI nnn => Laws.FixedBits.ldI nnn
  | .jpV0 nnn => Laws.FixedBits.jpV0 nnn
  | .rnd x nn => Laws.FixedBits.rnd x nn
  | .drw x y n => Laws.FixedBits.drw x y n
  | .skp x => Laws.FixedBits.skp x
  | .sknp x => Laws.FixedBits.sknp x
  | .ldVxDT x => Laws.FixedBits.ldVxDT x
  | .ldVxK x => Laws.FixedBits.ldVxK x
  | .ldDTVx x => Laws.FixedBits.ldDTVx x
  | .ldSTVx x => Laws.FixedBits.ldSTVx x
  | .addI x => Laws.FixedBits.addI x
  | .ldF x => Laws.FixedBits.ldF x
  | .ldB x => Laws.FixedBits.ldB x
  | .ldMemVx x => Laws.FixedBits.ldMemVx x
  | .ldVxMem x => Laws.FixedBits.ldVxMem x

/-- A word that decodes has the fixed bits of its instruction's row. -/
theorem matches_row_of_decode {w : Word} {i : Instr} (h : decode w = .ok i) :
    i.row ∈ opcodeTable ∧ w &&& i.row.mask = i.row.fixed :=
  encode_of_decode h ▸ row_mem_and_encode_and_mask i

/-! ### The fields that the fixed bits of a row determine (R92) -/

theorem fieldOp_and (w m : Word) : fieldOp (w &&& m) = fieldOp w &&& fieldOp m :=
  BitVec.extractLsb'_and

theorem fieldN_and (w m : Word) : fieldN (w &&& m) = fieldN w &&& fieldN m :=
  BitVec.extractLsb'_and

theorem fieldNN_and (w m : Word) : fieldNN (w &&& m) = fieldNN w &&& fieldNN m :=
  BitVec.extractLsb'_and

section
variable {w f : Word}

/-- A mask that covers the top nibble fixes the opcode class. -/
theorem fieldOp_of_and {m : Word} (hm : fieldOp m = 0xF#4) (h : w &&& m = f) : fieldOp w = fieldOp f := by
  rw [← h, fieldOp_and, hm]
  exact (Laws.and_ones4 _).symm

/-- A mask that covers the fourth nibble fixes it. -/
theorem fieldN_of_and {m : Word} (hm : fieldN m = 0xF#4) (h : w &&& m = f) : fieldN w = fieldN f := by
  rw [← h, fieldN_and, hm]
  exact (Laws.and_ones4 _).symm

/-- A mask that covers the low byte fixes it. -/
theorem fieldNN_of_and {m : Word} (hm : fieldNN m = 0xFF#8) (h : w &&& m = f) : fieldNN w = fieldNN f := by
  rw [← h, fieldNN_and, hm]
  exact (Laws.and_ones8 _).symm
end

/-! ### A word that matches a row decodes (R100)

For each of the table's masks: a word with these fixed bits is its format, filled with the fixed bits and
the word's own operands. -/

section
variable {w f : Word} {op n : Nibble} {nn : Byte}

theorem wordNNN_of_and (h : w &&& 0xF000#16 = f) (hop : fieldOp f = op) :
    wordNNN op (fieldNNN w) = w :=
  wordNNN_of_op ((fieldOp_of_and rfl h).trans hop)

theorem wordXNN_of_and (h : w &&& 0xF000#16 = f) (hop : fieldOp f = op) :
    wordXNN op (fieldX w) (fieldNN w) = w :=
  wordXNN_of_op ((fieldOp_of_and rfl h).trans hop)

theorem wordX_of_and (h : w &&& 0xF0FF#16 = f) (hop : fieldOp f = op) (hnn : fieldNN f = nn) :
    wordXNN op (fieldX w) nn = w :=
  wordXNN_of_op_nn ((fieldOp_of_and rfl h).trans hop) ((fieldNN_of_and rfl h).trans hnn)

theorem wordXYN_of_and (h : w &&& 0xF000#16 = f) (hop : fieldOp f = op) :
    wordXYN op (fieldX w) (fieldY w) (fieldN w) = w :=
  wordXYN_of_op ((fieldOp_of_and rfl h).trans hop)

theorem wordXY_of_and (h : w &&& 0xF00F#16 = f) (hop : fieldOp f = op) (hn : fieldN f = n) :
    wordXYN op (fieldX w) (fieldY w) n = w :=
  wordXYN_of_op_n ((fieldOp_of_and rfl h).trans hop) ((fieldN_of_and rfl h).trans hn)

theorem eq_of_and_ones (h : w &&& 0xFFFF#16 = f) : f = w :=
  h.symm.trans BitVec.and_allOnes

/-- A word that some instruction encodes to decodes. -/
theorem decodes_of_encode {i : Instr} (h : encode i = w) : ∃ i, decode w = .ok i :=
  ⟨i, h ▸ decode_encode i⟩

/-- A word with the fixed bits of a row of the table decodes, row by row: it is the encoding of the row's
instruction with the word's own operands. -/
theorem decodes_of_matches_row {r : OpcodeRow} (hr : r ∈ opcodeTable) (h : w &&& r.mask = r.fixed) :
    ∃ i, decode w = .ok i := by
  simp only [opcodeTable, Instr.row, List.mem_append, List.mem_cons, List.not_mem_nil, or_false,
    or_assoc] at hr
  rcases hr with rfl | rfl | rfl | rfl | rfl | rfl | rfl | rfl | rfl | rfl | rfl | rfl | rfl | rfl |
    rfl | rfl | rfl | rfl | rfl | rfl | rfl | rfl | rfl | rfl | rfl | rfl | rfl | rfl | rfl | rfl |
    rfl | rfl | rfl | rfl
  · exact decodes_of_encode (i := .cls) (eq_of_and_ones h)
  · exact decodes_of_encode (i := .ret) (eq_of_and_ones h)
  · exact decodes_of_encode (i := .jp _) (wordNNN_of_and h rfl)
  · exact decodes_of_encode (i := .call _) (wordNNN_of_and h rfl)
  · exact decodes_of_encode (i := .seImm _ _) (wordXNN_of_and h rfl)
  · exact decodes_of_encode (i := .sneImm _ _) (wordXNN_of_and h rfl)
  · exact decodes_of_encode (i := .seReg _ _) (wordXY_of_and h rfl rfl)
  · exact decodes_of_encode (i := .ldImm _ _) (wordXNN_of_and h rfl)
  · exact decodes_of_encode (i := .addImm _ _) (wordXNN_of_and h rfl)
  · exact decodes_of_encode (i := .ldReg _ _) (wordXY_of_and h rfl rfl)
  · exact decodes_of_encode (i := .orReg _ _) (wordXY_of_and h rfl rfl)
  · exact decodes_of_encode (i := .andReg _ _) (wordXY_of_and h rfl rfl)
  · exact decodes_of_encode (i := .xorReg _ _) (wordXY_of_and h rfl rfl)
  · exact decodes_of_encode (i := .addReg _ _) (wordXY_of_and h rfl rfl)
  · exact decodes_of_encode (i := .sub _ _) (wordXY_of_and h rfl rfl)
  · exact decodes_of_encode (i := .shr _ _) (wordXY_of_and h rfl rfl)
  · exact decodes_of_encode (i := .subn _ _) (wordXY_of_and h rfl rfl)
  · exact decodes_of_encode (i := .shl _ _) (wordXY_of_and h rfl rfl)
  · exact decodes_of_encode (i := .sneReg _ _) (wordXY_of_and h rfl rfl)
  · exact decodes_of_encode (i := .ldI _) (wordNNN_of_and h rfl)
  · exact decodes_of_encode (i := .jpV0 _) (wordNNN_of_and h rfl)
  · exact decodes_of_encode (i := .rnd _ _) (wordXNN_of_and h rfl)
  · exact decodes_of_encode (i := .drw _ _ _) (wordXYN_of_and h rfl)
  · exact decodes_of_encode (i := .skp _) (wordX_of_and h rfl rfl)
  · exact decodes_of_encode (i := .sknp _) (wordX_of_and h rfl rfl)
  · exact decodes_of_encode (i := .ldVxDT _) (wordX_of_and h rfl rfl)
  · exact decodes_of_encode (i := .ldVxK _) (wordX_of_and h rfl rfl)
  · exact decodes_of_encode (i := .ldDTVx _) (wordX_of_and h rfl rfl)
  · exact decodes_of_encode (i := .ldSTVx _) (wordX_of_and h rfl rfl)
  · exact decodes_of_encode (i := .addI _) (wordX_of_and h rfl rfl)
  · exact decodes_of_encode (i := .ldF _) (wordX_of_and h rfl rfl)
  · exact decodes_of_encode (i := .ldB _) (wordX_of_and h rfl rfl)
  · exact decodes_of_encode (i := .ldMemVx _) (wordX_of_and h rfl rfl)
  · exact decodes_of_encode (i := .ldVxMem _) (wordX_of_and h rfl rfl)
end

/-- Settles O4: what a word decodes to encodes to the word, which has the fixed bits of that row; and a
word with the fixed bits of a row is the encoding of the row's instruction with its own operands. -/
theorem decoderFollowsOpcodeTable : Obligations.DecoderFollowsOpcodeTable := fun _ =>
  ⟨fun _ h => matches_row_of_decode h,
    fun ⟨i, h⟩ => ⟨i.row, matches_row_of_decode h⟩, fun ⟨_, hr, h⟩ => decodes_of_matches_row hr h⟩

/-! ### The rows exclude each other (R100) -/

/-- A word that matches two rows makes their fixed bits agree where both masks reach. -/
theorem fixed_and_mask_of_matches_both {w : Word} {r q : OpcodeRow} (hr : w &&& r.mask = r.fixed)
    (hq : w &&& q.mask = q.fixed) : r.fixed &&& q.mask = q.fixed &&& r.mask := by
  rw [← hr, ← hq, BitVec.and_assoc, BitVec.and_assoc, BitVec.and_comm r.mask]

/-- Any two rows of the table differ in a bit that both masks reach. -/
theorem opcodeTable_pairwise :
    opcodeTable.Pairwise fun r q => r.fixed &&& q.mask ≠ q.fixed &&& r.mask := by
  decide

/-- Settles O5: two rows of the table differ in a fixed bit of both, so no word has the fixed bits of
both. -/
theorem opcodeRowsAreDisjoint : Obligations.OpcodeRowsAreDisjoint :=
  ⟨rfl, opcodeTable_pairwise.imp fun hne _ h => hne (fixed_and_mask_of_matches_both h.1 h.2)⟩

/-! ### The unknown words, class by class (R108) -/

section
variable {w : Word}

theorem decodeClass0_eq_error :
    decodeClass0 w = .error (.unknownOpcode w) ↔ w.toNat ≠ 0x00E0 ∧ w.toNat ≠ 0x00EE := by
  unfold decodeClass0
  split <;> [skip; split] <;> simp_all [← BitVec.toNat_inj]

/-- The test of classes 5 and 9. -/
theorem fieldN_eq_zero : fieldN w = 0x0#4 ↔ w.toNat % 16 = 0 := by
  rw [← toNat_fieldN, ← BitVec.toNat_inj]
  rfl

theorem decodeClass8_eq_error :
    decodeClass8 w = .error (.unknownOpcode w) ↔
      w.toNat % 16 ∈ [0x8, 0x9, 0xA, 0xB, 0xC, 0xD, 0xF] := by
  unfold decodeClass8
  rw [← toNat_fieldN]
  rcases nibble_cases (fieldN w) with h | h | h | h | h | h | h | h | h | h | h | h | h | h | h | h <;>
    simp [h]

theorem decodeClassE_eq_error :
    decodeClassE w = .error (.unknownOpcode w) ↔ w.toNat % 256 ∉ [0x9E, 0xA1] := by
  unfold decodeClassE
  rw [← toNat_fieldNN]
  split <;> simp_all [← BitVec.toNat_inj]

theorem decodeClassF_eq_error :
    decodeClassF w = .error (.unknownOpcode w) ↔
      w.toNat % 256 ∉ [0x07, 0x0A, 0x15, 0x18, 0x1E, 0x29, 0x33, 0x55, 0x65] := by
  unfold decodeClassF
  rw [← toNat_fieldNN]
  split <;> simp_all [← BitVec.toNat_inj]

/-- The opcode class as the number that the spec's list of unknown words speaks of. -/
theorem toNat_div_of_fieldOp {op : Nibble} (h : fieldOp w = op) : w.toNat / 4096 = op.toNat := by
  rw [← toNat_fieldOp, h]
end

/-- Settles O6, by the opcode class: a class with one instruction for every operand has no unknown word,
the others have those that their second dispatch does not list. -/
theorem unknownWordsAreExactlyTheListed : Obligations.UnknownWordsAreExactlyTheListed := by
  intro w
  rcases decode_cases w with ⟨hop, hd⟩ | ⟨hop, hd⟩ | ⟨hop, hd⟩ | ⟨hop, hd⟩ | ⟨hop, hd⟩ | ⟨hop, hd⟩ |
    ⟨hop, hd⟩ | ⟨hop, hd⟩ | ⟨hop, hd⟩ | ⟨hop, hd⟩ | ⟨hop, hd⟩ | ⟨hop, hd⟩ | ⟨hop, hd⟩ | ⟨hop, hd⟩ |
    ⟨hop, hd⟩ | ⟨hop, hd⟩ <;>
    simp [hd, toNat_div_of_fieldOp hop, -List.mem_cons, decodeClass0_eq_error, fieldN_eq_zero,
      decodeClass8_eq_error, decodeClassE_eq_error, decodeClassF_eq_error]

/-- Settles O7: the decoder run on the ten words. -/
theorem sampleWordsDecode : Obligations.SampleWordsDecode :=
  ⟨rfl, rfl, rfl, rfl, rfl, rfl, rfl, rfl, rfl, rfl⟩

end Sys2Proof
end

section
/-! What every instruction does: its one fault or its effect, and what the effect leaves alone. -/

namespace Sys2Proof.Machine

/-! ### A register and the flag after it (R24, R152) -/

section
variable (s : State) {x : Nibble} (b : Byte) (c : Bool)

theorem reg_setReg_same : (s.setReg x b).reg x = b := (reg_setReg ..).trans (if_pos rfl)

/-- The frame of every instruction that writes one register and then the flag. -/
theorem onlyRegs_setReg_setFlag : OnlyRegs (fun r => r = x ∨ r = vf) s ((s.setReg x b).setFlag c) := by
  refine ⟨fun r hr => ?_, fun _ => rfl, rfl⟩
  rw [not_or] at hr
  rw [reg_setFlag, if_neg hr.2, reg_setReg, if_neg hr.1]

/-- The flag is written last, so it remains, also in `V[15]` as the destination. -/
theorem reg_vf_setFlag : (s.setFlag c).reg vf = flagByte c := (reg_setFlag ..).trans (if_pos rfl)

theorem reg_dest_setReg_setFlag (hx : x ≠ vf) : ((s.setReg x b).setFlag c).reg x = b := by
  rw [reg_setFlag, if_neg hx, reg_setReg_same]
end

/-! ### The effect of an instruction, apart from its fault -/

/-- The state an instruction leaves when it does not fault: `exec` without the checks of the stack and of
the memory range, which `executionFault` makes (`exec_of_no_fault`). -/
def effect : Instr → State → State
  | .cls, s => { s with fb := Display.blank }
  | .ret, s => { s with pc := s.stack[s.sp.val - 1]'(by omega), sp := ⟨s.sp.val - 1, by omega⟩ }
  | .jp nnn, s => s.setPc (zext16 nnn)
  | .call nnn, s => { s with
      pc := zext16 nnn, stack := s.stack.setIfInBounds s.sp.val s.pc, sp := Fin.ofNat 17 (s.sp.val + 1) }
  | .seImm x nn, s => s.skipIf (s.reg x == nn)
  | .sneImm x nn, s => s.skipIf (s.reg x != nn)
  | .seReg x y, s => s.skipIf (s.reg x == s.reg y)
  | .ldImm x nn, s => s.setReg x nn
  | .addImm x nn, s => s.setReg x (s.reg x + nn)
  | .ldReg x y, s => s.setReg x (s.reg y)
  | .orReg x y, s => s.setReg x (s.reg x ||| s.reg y)
  | .andReg x y, s => s.setReg x (s.reg x &&& s.reg y)
  | .xorReg x y, s => s.setReg x (s.reg x ^^^ s.reg y)
  | .addReg x y, s => (s.setReg x (s.reg x + s.reg y)).setFlag (carryFlag (s.reg x) (s.reg y))
  | .sub x y, s => (s.setReg x (s.reg x - s.reg y)).setFlag (noBorrowFlag (s.reg x) (s.reg y))
  | .shr x y, s =>
    (s.setReg x (s.shiftOperand x y >>> 1)).setFlag (shiftRightFlag (s.shiftOperand x y))
  | .subn x y, s => (s.setReg x (s.reg y - s.reg x)).setFlag (noBorrowFlag (s.reg y) (s.reg x))
  | .shl x y, s =>
    (s.setReg x (s.shiftOperand x y <<< 1)).setFlag (shiftLeftFlag (s.shiftOperand x y))
  | .sneReg x y, s => s.skipIf (s.reg x != s.reg y)
  | .ldI nnn, s => s.setI (zext16 nnn)
  | .jpV0 nnn, s => s.setPc (zext16 nnn + zext16 (s.jumpOffset nnn))
  | .rnd x nn, s => s.setReg x (s.rnd &&& nn)
  | .drw x y n, s =>
    State.setFlag { s with fb := (togglePixels (s.drawPixels x y n) (s.fb, false)).1 }
      (togglePixels (s.drawPixels x y n) (s.fb, false)).2
  | .skp x, s => s.skipIf (s.keyDown (s.lowNibble x))
  | .sknp x, s => s.skipIf (!s.keyDown (s.lowNibble x))
  | .ldVxDT x, s => s.setReg x s.dt
  | .ldVxK x, s => { s with waitX := x, prevKeys := s.keys, rs := .waitingForKey }
  | .ldDTVx x, s => { s with dt := s.reg x }
  | .ldSTVx x, s => { s with st := s.reg x }
  | .addI x, s =>
    { s.setI (s.i + zext16 (s.reg x)) with
      v := (if s.quirks.addIFlag then s.setFlag (indexFlag s.i (s.reg x)) else s).v }
  | .ldF x, s => s.setI (s.glyphAddress (s.lowNibble x))
  | .ldB x, s => s.store s.i.toNat (bcdDigits (s.reg x))
  | .ldMemVx x, s => (s.store s.i.toNat (s.dumpBytes x)).setI (s.indexAfter x)
  | .ldVxMem x, s => { s with
      v := loadRegs 0 (s.mem.readBytes s.i.toNat (x.toNat + 1)) s.v, i := s.indexAfter x }

/-- FX1E with its flag (R181). -/
theorem effect_addI_of_flag {s : State} (x : Nibble) (hq : s.quirks.addIFlag = true) :
    effect (.addI x) s =
      (s.setI (s.i + zext16 (s.reg x))).setFlag (indexFlag s.i (s.reg x)) := by
  simp only [effect, hq, if_true]
  rfl

/-- FX1E without its flag (R181). -/
theorem effect_addI_of_not_flag {s : State} (x : Nibble) (hq : s.quirks.addIFlag = false) :
    effect (.addI x) s = s.setI (s.i + zext16 (s.reg x)) := by
  simp only [effect, hq]
  rfl

/-! ### Fault or effect (R200, R208) -/

section
variable {i : Instr} {s t : State} {k : ErrKind} {a : Nat}

/-- An instruction raises the fault that the table gives it, or has its effect. -/
theorem exec_eq (i : Instr) (s : State) :
    exec i s = .next ((executionFault i s).elim (effect i s)
      fun f => raise f.1 i (BitVec.ofNat 17 f.2) s) := by
  cases i
  case ret =>
    rcases execRet_cases s with ⟨hsp, h⟩ | ⟨hpos, h⟩
    · simp [exec, h, executionFault, hsp]
    · simp [exec, h, executionFault, effect, Nat.ne_of_gt hpos]
  case call nnn =>
    rcases execCall_cases nnn s with ⟨hsp, h⟩ | ⟨hlt, h⟩
    · simp [exec, h, executionFault, hsp]
    · have hsp : (⟨s.sp.val + 1, by omega⟩ : Fin 17) = Fin.ofNat 17 (s.sp.val + 1) :=
        Fin.ext (Nat.mod_eq_of_lt (by omega)).symm
      have hstack : s.stack.setIfInBounds s.sp.val s.pc = s.stack.set s.sp.val s.pc hlt := by
        ext; simp [Vector.getElem_set, Vector.getElem_setIfInBounds]
      simp [exec, h, executionFault, effect, Nat.ne_of_lt hlt, hsp, hstack]
  case drw x y n =>
    rcases execDrw_cases x y n s with ⟨h0, hlt, h⟩ | ⟨hin, h⟩
    · simp [exec, h, executionFault, accessLength, h0, hlt]
    · have : ¬ (0 < n.toNat ∧ 4096 < s.i.toNat + n.toNat) := by omega
      simp [exec, h, executionFault, accessLength, effect, this]
  case ldB x =>
    rcases execLdB_cases x s with ⟨hlt, h⟩ | ⟨hin, h⟩
    · simp [exec, h, executionFault, accessLength, storeLength, hlt]
    · simp [exec, h, executionFault, accessLength, storeLength, effect, not_lt.mpr hin]
  case ldMemVx x =>
    rcases execLdMemVx_cases x s with ⟨hlt, h⟩ | ⟨hin, h⟩
    · simp [exec, h, executionFault, accessLength, storeLength, hlt]
    · simp [exec, h, executionFault, accessLength, storeLength, effect, not_lt.mpr hin]
  case ldVxMem x =>
    rcases execLdVxMem_cases x s with ⟨hlt, h⟩ | ⟨hin, h⟩
    · simp [exec, h, executionFault, accessLength, hlt]
    · simp [exec, h, executionFault, accessLength, effect, not_lt.mpr hin]
  case addI x =>
    cases hq : s.quirks.addIFlag
    · simp [exec, execAddI, executionFault, hq, effect_addI_of_not_flag]
    · simp [exec, execAddI, executionFault, hq, effect_addI_of_flag]
  all_goals rfl

theorem exec_of_fault (h : executionFault i s = some (k, a)) :
    exec i s = .next (raise k i (BitVec.ofNat 17 a) s) := by
  rw [exec_eq, h]
  rfl

theorem exec_of_no_fault (h : executionFault i s = none) : exec i s = .next (effect i s) := by
  rw [exec_eq, h]
  rfl

/-- What a next state of an instruction can be. -/
theorem exec_next_cases (h : exec i s = .next t) :
    (∃ k a, executionFault i s = some (k, a) ∧ t = raise k i (BitVec.ofNat 17 a) s) ∨
    (executionFault i s = none ∧ t = effect i s) := by
  cases hf : executionFault i s with
  | none =>
    rw [exec_of_no_fault hf] at h
    exact .inr ⟨rfl, (Host.Outcome.next.inj h).symm⟩
  | some f =>
    rw [exec_of_fault hf] at h
    exact .inl ⟨f.1, f.2, rfl, (Host.Outcome.next.inj h).symm⟩

/-- The faults of the table: an address only with `outOfBounds`. -/
theorem executionFault_eq_some (h : executionFault i s = some (k, a)) :
    (k = .outOfBounds ∧ a = max 4096 s.i.toNat) ∨ ((k = .stackOverflow ∨ k = .stackUnderflow) ∧ a = 0) := by
  cases i <;> simp only [executionFault, reduceCtorEq, Option.ite_none_right_eq_some,
    Option.some.injEq, Prod.mk.injEq] at h <;> simp [← h.2.1, ← h.2.2]

/-- An instruction that stores and does not fault stores inside memory. -/
theorem store_in_range (h : executionFault i s = none) :
    storeLength i = 0 ∨ s.i.toNat + storeLength i ≤ 4096 := by
  cases i
  case ldB | ldMemVx => exact .inr (by simpa [executionFault, accessLength, storeLength] using h)
  all_goals exact .inl rfl
end

/-! ### What the effect leaves alone -/

section
variable (i : Instr) (s : State)

/-- The error record, the straps, the inputs, the load port and the model's own fields are no
instruction's to write (R36, R38, R42, R44, R51). -/
theorem effect_keeps : effect i s = { s with
    v := (effect i s).v, i := (effect i s).i, pc := (effect i s).pc, stack := (effect i s).stack,
    sp := (effect i s).sp, dt := (effect i s).dt, st := (effect i s).st, rs := (effect i s).rs,
    mem := (effect i s).mem, fb := (effect i s).fb, waitX := (effect i s).waitX,
    prevKeys := (effect i s).prevKeys } := by
  cases i <;> rfl

theorem effect_err : (effect i s).err = s.err := by rw [effect_keeps]

theorem effect_fontBase : (effect i s).mem.fontBase = s.mem.fontBase := by
  cases i
  case ldB | ldMemVx => exact writeBytes_fontBase ..
  all_goals rfl

/-- Only FX0A writes `RS` (R35). -/
theorem effect_rs : (effect i s).rs = s.rs ∨ ∃ x, i = .ldVxK x ∧ (effect i s).rs = .waitingForKey := by
  cases i
  case ldVxK x => exact .inr ⟨x, rfl, rfl⟩
  all_goals exact .inl rfl

variable {i s}

theorem effect_stack_sp (hcall : ∀ nnn, i ≠ .call nnn) (hret : i ≠ .ret) :
    (effect i s).stack = s.stack ∧ (effect i s).sp = s.sp := by
  cases i
  case call nnn => exact absurd rfl (hcall nnn)
  case ret => exact absurd rfl hret
  all_goals exact ⟨rfl, rfl⟩

theorem effect_dt (h : ∀ x, i ≠ .ldDTVx x) : (effect i s).dt = s.dt := by
  cases i
  case ldDTVx x => exact absurd rfl (h x)
  all_goals rfl

theorem effect_st (h : ∀ x, i ≠ .ldSTVx x) : (effect i s).st = s.st := by
  cases i
  case ldSTVx x => exact absurd rfl (h x)
  all_goals rfl

theorem effect_fb (hcls : i ≠ .cls) (hdrw : ∀ x y n, i ≠ .drw x y n) : (effect i s).fb = s.fb := by
  cases i
  case cls => exact absurd rfl hcls
  case drw x y n => exact absurd rfl (hdrw x y n)
  all_goals rfl

theorem effect_waitX_prevKeys (h : ∀ x, i ≠ .ldVxK x) :
    (effect i s).waitX = s.waitX ∧ (effect i s).prevKeys = s.prevKeys := by
  cases i
  case ldVxK x => exact absurd rfl (h x)
  all_goals exact ⟨rfl, rfl⟩

theorem effect_i (h : writesIndex s.quirks i = false) : (effect i s).i = s.i := by
  cases i
  case ldI | addI | ldF => cases h
  case ldMemVx x | ldVxMem x => exact if_neg (Bool.eq_false_iff.mp h)
  all_goals rfl

theorem effect_pc (h : transfersControl i = false) : (effect i s).pc = s.pc := by
  cases i
  case ret | jp | call | jpV0 | seImm | sneImm | seReg | sneReg | skp | sknp => cases h
  all_goals rfl

theorem reg_effect {r : Nibble} (h : ¬ writesReg s.quirks i r = true) :
    (effect i s).reg r = s.reg r := by
  cases i
  case ldImm | addImm | ldReg | orReg | andReg | xorReg | rnd | ldVxDT =>
    exact (reg_setReg ..).trans (if_neg (by simpa [writesReg] using h))
  case addReg | sub | shr | subn | shl =>
    exact (onlyRegs_setReg_setFlag ..).1 r (by simpa [writesReg] using h)
  case drw => exact (reg_setFlag ..).trans (if_neg (by simpa [writesReg] using h))
  case addI x =>
    cases hq : s.quirks.addIFlag
    · rw [effect_addI_of_not_flag x hq, reg_setI]
    · rw [effect_addI_of_flag x hq, reg_setFlag, if_neg (by simpa [writesReg, hq] using h), reg_setI]
  case ldVxMem x => exact (loadRegs_readBytes ..).trans (if_neg (by simpa [writesReg] using h))
  all_goals rfl

/-- An instruction that writes VF as a flag writes it last (R152 (b)). -/
theorem reg_vf_effect (h : writesFlag s.quirks i = true) : ∃ c, (effect i s).reg vf = flagByte c := by
  cases i
  case addReg | sub | shr | subn | shl | drw => exact ⟨_, reg_vf_setFlag ..⟩
  case addI x =>
    rw [effect_addI_of_flag x h]
    exact ⟨_, reg_vf_setFlag ..⟩
  all_goals cases h

variable (i s)

/-- An instruction changes memory by writing the bytes of its store range (R69). -/
theorem effect_mem :
    ∃ bs : List Byte, bs.length = storeLength i ∧ (effect i s).mem = s.mem.writeBytes s.i.toNat bs := by
  cases i
  case ldB x => exact ⟨bcdDigits (s.reg x), rfl, rfl⟩
  case ldMemVx x => exact ⟨s.dumpBytes x, dumpBytes_length s x, rfl⟩
  all_goals exact ⟨[], rfl, rfl⟩

variable {i s}

theorem effect_wf (hm : s.mem.wf = true) (hf : executionFault i s = none) :
    (effect i s).mem.wf = true := by
  obtain ⟨bs, hlen, hmem⟩ := effect_mem i s
  rw [hmem]
  rcases store_in_range hf with h0 | hle
  · rw [List.length_eq_zero_iff.mp (hlen.trans h0)]
    exact hm
  · exact wf_writeBytes hm (by omega)

theorem sameMemoryBut_effect (hm : s.mem.wf = true) (hf : executionFault i s = none) :
    SameMemoryBut s.i.toNat (storeLength i) s (effect i s) := by
  obtain ⟨bs, hlen, hmem⟩ := effect_mem i s
  intro a ha
  rw [hmem]
  rcases store_in_range hf with h0 | hle
  · rw [List.length_eq_zero_iff.mp (hlen.trans h0)]
    rfl
  · exact read_writeBytes_outside hm (by omega) (by omega)
end

end Sys2Proof.Machine
end

section
/-! Proofs of the statements about what an instruction changes and when it faults (10_state.md,
60_exceptions.md). -/

namespace Sys2Proof.Machine

/-- Settles O20: every instruction raises its fault or has its effect. -/
theorem execAlwaysAnswersNext : Obligations.ExecAlwaysAnswersNext := fun i s => ⟨_, exec_eq i s⟩

/-- Settles O21: the fault of the table is what `exec` raises, and no effect writes `ERR` or halts. -/
theorem executionFaultsExactly : Obligations.ExecutionFaultsExactly := by
  refine fun i s => ⟨fun k a h => exec_of_fault h, fun t hf h => ?_⟩
  obtain rfl := Host.Outcome.next.inj ((exec_of_no_fault hf).symm.trans h)
  refine ⟨effect_err i s, fun hrs => ?_⟩
  rcases effect_rs i s with he | ⟨_, _, he⟩ <;> rw [he]
  · exact hrs
  · exact RunState.noConfusion

/-- Settles O22: a fault writes no register, an effect those of the table. -/
theorem onlyListedRegistersChange : Obligations.OnlyListedRegistersChange := by
  intro i s t h r hr
  rcases exec_next_cases h with ⟨k, a, -, rfl⟩ | ⟨-, rfl⟩
  · exact reg_raise ..
  · exact reg_effect hr

/-- Settles O23: the flag is the last register written, and a flag byte is 0 or 1. -/
theorem flagWritesAreZeroOrOne : Obligations.FlagWritesAreZeroOrOne := by
  intro i s t hi hf h
  obtain rfl := Host.Outcome.next.inj ((exec_of_no_fault hf).symm.trans h)
  obtain ⟨c, hc⟩ := reg_vf_effect hi
  exact hc ▸ flagByte_cases c

/-- Settles O24: a fault leaves `I` alone, and so does the effect of every instruction not listed. -/
theorem onlyIndexInstructionsWriteIndex : Obligations.OnlyIndexInstructionsWriteIndex := by
  intro i s t h hi
  rcases exec_next_cases h with ⟨k, a, -, rfl⟩ | ⟨-, rfl⟩
  · exact raise_i ..
  · exact effect_i hi

/-- Settles O25: a fault leaves the devices alone, and an effect those of other instructions. -/
theorem eachDeviceHasItsInstructions : Obligations.EachDeviceHasItsInstructions := by
  intro i s t h
  rcases exec_next_cases h with ⟨k, a, -, rfl⟩ | ⟨-, rfl⟩
  · exact ⟨fun _ _ => ⟨rfl, rfl⟩, fun _ => rfl, fun _ => rfl, fun _ _ => rfl, fun _ => ⟨rfl, rfl⟩⟩
  · exact ⟨effect_stack_sp, effect_dt, effect_st, effect_fb, effect_waitX_prevKeys⟩

/-- Settles O26: neither a fault nor an effect writes any of these fields. -/
theorem instructionsLeaveInputsAndStraps : Obligations.InstructionsLeaveInputsAndStraps := by
  intro i s t h
  rcases exec_next_cases h with ⟨k, a, -, rfl⟩ | ⟨-, rfl⟩
  · exact ⟨rfl, rfl, rfl, rfl, rfl, rfl, rfl, rfl⟩
  · rw [effect_fontBase, effect_keeps]
    exact ⟨rfl, rfl, rfl, rfl, rfl, rfl, rfl, rfl⟩

/-- Settles O27: an effect writes the bytes of the store range, a fault none. -/
theorem onlyStoredBytesChange : Obligations.OnlyStoredBytesChange := by
  intro i s t hm h
  rcases exec_next_cases h with ⟨k, a, -, rfl⟩ | ⟨hf, rfl⟩
  · exact ⟨fun _ _ => rfl, fun _ _ => rfl⟩
  · exact ⟨sameMemoryBut_effect hm hf, fun hne => absurd hf hne⟩

end Sys2Proof.Machine
end

section
/-! The invariant of the core: it holds at reset and every step keeps it (R28, R29, R35, R36, R50, R60). -/

namespace Sys2Proof.Machine

/-! ### What an effect can leave in `PC` and in the stack (R28, R29, R120) -/

theorem toNat_add_two (a : Word) : (a + 2).toNat = (a.toNat + 2) % 65536 := BitVec.toNat_add a 2

/-- `PC` after a fetch is at most 0x1000, since both bytes fetched lie in memory. -/
theorem toNat_pc_advanced_le {s : State} (hpc : s.pc.toNat + 1 ≤ 4095) :
    (s.pc + 2).toNat ≤ 0x1000 := by
  rw [toNat_add_two]; omega

section
variable {s : State} (i : Instr)

theorem toNat_skipIf_pc_le (hpc : s.pc.toNat ≤ 0x1000) (c : Bool) :
    (s.skipIf c).pc.toNat ≤ 0x10FE := by
  rw [skipIf_pc]
  split
  · rw [toNat_add_two]; omega
  · omega

/-- The farthest target is that of BNNN, 0xFFF + 0xFF. -/
theorem effect_pc_le (hpc : s.pc.toNat ≤ 0x1000) (hstack : ∀ k : Fin 16, s.stack[k].toNat ≤ 0x1000) :
    (effect i s).pc.toNat ≤ 0x10FE := by
  cases i
  case ret => exact (hstack ⟨s.sp.val - 1, by omega⟩).trans (by decide)
  case jp nnn | call nnn =>
    have := nnn.isLt
    exact (toNat_zext16 (by decide) nnn).trans_le (by omega)
  case jpV0 nnn =>
    have := nnn.isLt
    have := (s.jumpOffset nnn).isLt
    simp only [effect, setPc_pc, BitVec.toNat_add, toNat_zext16 (show 12 ≤ 16 by decide),
      toNat_zext16 (show 8 ≤ 16 by decide)]
    omega
  case seImm | sneImm | seReg | sneReg | skp | sknp => exact toNat_skipIf_pc_le hpc _
  all_goals exact hpc.trans (by decide)

/-- Only a call writes the stack, and what it pushes is the advanced `PC`. -/
theorem effect_stack_le (hpc : s.pc.toNat ≤ 0x1000) (hstack : ∀ k : Fin 16, s.stack[k].toNat ≤ 0x1000)
    (k : Fin 16) : (effect i s).stack[k].toNat ≤ 0x1000 := by
  cases i
  case call nnn =>
    simp only [effect, Fin.getElem_fin, Vector.getElem_setIfInBounds]
    split
    · exact hpc
    · exact hstack k
  all_goals exact hstack k
end

/-! ### A Pass keeps the invariant

The state in which a Pass executes: Load is closed and was not refused. -/

theorem loaded_of_pass {s : State} {P : Prop} (hopen : s.loadOpen = false)
    (hok : s.loadOk = true) :
    s.loadOpen = true ∨ s.loadOk = false → P := by
  simp [hopen, hok]

section
variable {s t : State} (h : s.Inv) (hopen : s.loadOpen = false) (hok : s.loadOk = true)

include h hopen hok

/-- Fault entry keeps the invariant when the record has an address for `outOfBounds` only. -/
theorem inv_takeFault {k : ErrKind} {a w : Word} {addr : BitVec 17} (hk : k ≠ .none)
    (haddr : if k = .outOfBounds then 4096 ≤ addr.toNat else addr = 0) :
    (takeFault k a w addr s).Inv where
  memory := h.memory
  pc := h.pc
  stack := h.stack
  halted := iff_of_true rfl hk
  noError := fun hnone => absurd hnone hk
  errAddr := haddr
  loaded := loaded_of_pass hopen hok

theorem inv_raise {i : Instr} {k : ErrKind} {a : Nat} (hf : executionFault i s = some (k, a)) :
    (raise k i (BitVec.ofNat 17 a) s).Inv := by
  rcases executionFault_eq_some hf with ⟨rfl, rfl⟩ | ⟨rfl | rfl, rfl⟩
  · refine inv_takeFault h hopen hok (by decide) ?_
    rw [if_pos rfl, toNat_badAddress]
    exact le_max_left ..
  · exact inv_takeFault h hopen hok (by decide) rfl
  · exact inv_takeFault h hopen hok (by decide) rfl

theorem inv_effect {i : Instr} (hpc : s.pc.toNat ≤ 0x1000) (hrs : s.rs = .running)
    (hf : executionFault i s = none) : (effect i s).Inv where
  memory := effect_wf h.memory hf
  pc := effect_pc_le i hpc h.stack
  stack := effect_stack_le i hpc h.stack
  halted := by
    have hnot : (effect i s).rs ≠ .halted := by
      rcases effect_rs i s with he | ⟨_, _, he⟩ <;> rw [he]
      · rw [hrs]; exact RunState.noConfusion
      · exact RunState.noConfusion
    rw [effect_err, ← h.halted, hrs]
    exact iff_of_false hnot RunState.noConfusion
  noError := by rw [effect_err]; exact h.noError
  errAddr := by rw [effect_err]; exact h.errAddr
  loaded := by rw [effect_keeps]; exact loaded_of_pass hopen hok

theorem inv_exec {i : Instr} (hpc : s.pc.toNat ≤ 0x1000) (hrs : s.rs = .running)
    (ht : exec i s = .next t) : t.Inv := by
  rcases exec_next_cases ht with ⟨k, a, hf, rfl⟩ | ⟨hf, rfl⟩
  · exact inv_raise h hopen hok hf
  · exact inv_effect h hopen hok hpc hrs hf

theorem inv_setPc {a : Word} (ha : a.toNat ≤ 0x10FE) : (s.setPc a).Inv where
  memory := h.memory
  pc := ha
  stack := h.stack
  halted := h.halted
  noError := h.noError
  errAddr := h.errAddr
  loaded := loaded_of_pass hopen hok

theorem inv_runningPass (hrs : s.rs = .running) (ht : runningPass s = .next t) : t.Inv := by
  rcases runningPass_cases s with ⟨hpc, hp⟩ | ⟨hpc, w, -, ⟨e, -, hp⟩ | ⟨i, -, hp⟩⟩
  · obtain rfl := Host.Outcome.next.inj (hp.symm.trans ht)
    refine inv_takeFault h hopen hok (by decide) ?_
    rw [if_pos rfl, toNat_badAddress]
    exact le_max_left ..
  · obtain rfl := Host.Outcome.next.inj (hp.symm.trans ht)
    have hadv := toNat_pc_advanced_le hpc
    exact inv_takeFault (inv_setPc h hopen hok (hadv.trans (by decide))) hopen hok (by decide) rfl
  · have hadv := toNat_pc_advanced_le hpc
    exact inv_exec (inv_setPc h hopen hok (hadv.trans (by decide))) hopen hok hadv hrs (hp.symm.trans ht)

theorem inv_waitingPass (hrs : s.rs = .waitingForKey) : (waitingPass s).Inv := by
  have hnone : s.err.kind = .none := by
    by_contra hne
    exact RunState.noConfusion (hrs.symm.trans (h.halted.mpr hne))
  rcases waitingPass_cases s with ⟨-, hw⟩ | ⟨k, -, hw⟩ <;> rw [hw]
  · exact ⟨h.memory, h.pc, h.stack, h.halted, h.noError, h.errAddr, h.loaded⟩
  · exact ⟨h.memory, h.pc, h.stack, iff_of_false RunState.noConfusion (absurd hnone), h.noError,
      h.errAddr, loaded_of_pass hopen hok⟩
end

/-! ### The other events -/

/-- The reset values have the invariant, for all straps and every legal `FONT_BASE` (R50). -/
theorem inv_resetWith (q : Quirks) {fontBase : Nat} (h : fontBase + 80 ≤ 0x200) :
    (State.resetWith q fontBase).Inv where
  memory := wf_reset h
  pc := show (0x0200#16).toNat ≤ 0x10FE by decide
  stack := fun k => by simp [State.resetWith]
  halted := iff_of_false RunState.noConfusion (absurd rfl)
  noError := fun _ => rfl
  errAddr := rfl
  loaded := fun _ => ⟨rfl, rfl⟩

/-- An accepted Load (R244). -/
theorem loadEvent_of_le {s : State} {bytes : List Byte} (h : bytes.length ≤ 3584) :
    loadEvent bytes s = { s.store 0x200 bytes with loadOpen := false } := if_pos h

/-- A refused Load (R244). -/
theorem loadEvent_of_gt {s : State} {bytes : List Byte} (h : 3584 < bytes.length) :
    loadEvent bytes s = { s with loadOk := false, loadOpen := false } := if_neg (Nat.not_le.mpr h)

section
variable {s : State} (h : s.Inv)
include h

theorem inv_resetEvent (q : Quirks) : (resetEvent q s).Inv := by
  have hr := inv_resetWith q (Memory.wf_iff.mp h.memory).1
  exact ⟨hr.memory, hr.pc, hr.stack, hr.halted, hr.noError, hr.errAddr, hr.loaded⟩

/-- Load writes below 0x200 + 3584 = 4096, and leaves the core at the entry point (R244). -/
theorem inv_loadEvent (bytes : List Byte) (hopen : s.loadOpen = true) : (loadEvent bytes s).Inv := by
  rcases le_or_gt bytes.length 3584 with hlen | hlen
  · have hwf : (s.mem.writeBytes 0x200 bytes).wf = true := wf_writeBytes h.memory (by omega)
    rw [loadEvent_of_le hlen]
    exact ⟨hwf, h.pc, h.stack, h.halted, h.noError, h.errAddr, fun _ => h.loaded (.inl hopen)⟩
  · rw [loadEvent_of_gt hlen]
    exact ⟨h.memory, h.pc, h.stack, h.halted, h.noError, h.errAddr, fun _ => h.loaded (.inl hopen)⟩

theorem inv_beginPass (keys : BitVec 16) (rnd : Byte) (hok : s.loadOk = true) :
    (beginPass keys rnd s).Inv :=
  ⟨h.memory, h.pc, h.stack, h.halted, h.noError, h.errAddr, loaded_of_pass rfl hok⟩

theorem inv_ticks (n : Nat) : (ticks n s).Inv :=
  ⟨h.memory, h.pc, h.stack, h.halted, h.noError, h.errAddr, h.loaded⟩

/-- The state that an event finds has the invariant: the timers, the event list and the clock are no
part of it. -/
theorem inv_nextEvent {s' : State} {e : Event} (hn : nextEvent s = (e, s')) : s'.Inv := by
  rw [nextEvent_state hn]
  exact ⟨h.memory, h.pc, h.stack, h.halted, h.noError, h.errAddr, h.loaded⟩

theorem inv_runEvent {e : Event} {t : State} (ht : runEvent e s = .next t) : t.Inv := by
  rcases runEvent_next ht with ⟨q, -, rfl⟩ | ⟨bytes, -, hopen, rfl⟩ | ⟨k, b, -, hok, hrs, hp⟩ |
    ⟨k, b, -, hok, hrs, rfl⟩ | ⟨-, -, rfl⟩ | ⟨-, rfl⟩
  · exact inv_resetEvent h q
  · exact inv_loadEvent h bytes hopen
  · exact inv_runningPass (inv_beginPass h k b hok) rfl hok hrs hp
  · exact inv_waitingPass (inv_beginPass h k b hok) rfl hok hrs
  · exact inv_ticks h 1
  · exact h
end

/-! ### The statements -/

/-- Settles O16: both are reset values with a legal `FONT_BASE`. -/
theorem resetStateHasInvariant : Obligations.ResetStateHasInvariant :=
  ⟨inv_resetWith _ (by decide), fun q _ h => inv_resetWith q h⟩

/-- Settles O17, event by event: the state the event finds has the invariant, and each event keeps it. -/
theorem stepKeepsInvariant : Obligations.StepKeepsInvariant := fun _ _ h ht =>
  inv_runEvent (inv_nextEvent h rfl) ht

end Sys2Proof.Machine
end

section
/-! Proofs of the statements about Reset, Load and the events (10_state.md, 60_exceptions.md,
70_reset_and_hazards.md). -/

namespace Sys2Proof.Machine

/-! ### A step by its event -/

section
variable {s s' : State}

theorem step_pending {e : Event} {rest : List Event} (h : s.pending = e :: rest) :
    step s = runEvent e { s with pending := rest } :=
  step_of_nextEvent (nextEvent_pending h)

/-- A Tick, where it is enabled. -/
theorem runEvent_tick (h : s.rs ≠ .halted) : runEvent .tick s = .next (ticks 1 s) := by
  simp [runEvent, h]

theorem runEvent_load {bytes : List Byte} (h : s.loadOpen = true) :
    runEvent (.load bytes) s = .next (loadEvent bytes s) := by
  simp [runEvent, h]

/-- The state after a refused or accepted Load and after a Pass: `loadOpen` is off. -/
theorem loadEvent_loadOpen (bytes : List Byte) : (loadEvent bytes s).loadOpen = false := by
  unfold loadEvent
  split <;> rfl

theorem exec_loadOpen {i : Instr} {t : State} (h : exec i s = .next t) : t.loadOpen = s.loadOpen := by
  rcases exec_next_cases h with ⟨k, a, -, rfl⟩ | ⟨-, rfl⟩
  · rfl
  · rw [effect_keeps]

theorem runningPass_loadOpen {t : State} (h : runningPass s = .next t) : t.loadOpen = s.loadOpen := by
  rcases runningPass_cases s with ⟨-, hp⟩ | ⟨-, w, -, ⟨e, -, hp⟩ | ⟨i, -, hp⟩⟩
  · rw [← Host.Outcome.next.inj (hp.symm.trans h)]
    rfl
  · rw [← Host.Outcome.next.inj (hp.symm.trans h)]
    rfl
  · exact exec_loadOpen (s := s.setPc (s.pc + 2)) (hp.symm.trans h)

theorem waitingPass_loadOpen : (waitingPass s).loadOpen = s.loadOpen := by
  rcases waitingPass_cases s with ⟨-, hw⟩ | ⟨k, -, hw⟩
  · rw [hw]
  · rw [hw]
    rfl

/-- A Pass or a Load that is taken closes Load (R244). -/
theorem runEvent_loadOpen {e : Event} {t : State} (h : runEvent e s = .next t)
    (he : (∃ k b, e = .pass k b) ∨ ∃ bytes, e = .load bytes) : t.loadOpen = false := by
  rcases runEvent_next h with ⟨q, rfl, rfl⟩ | ⟨bytes, rfl, hopen, rfl⟩ | ⟨k, b, rfl, hok, hrs, hp⟩ |
    ⟨k, b, rfl, hok, hrs, rfl⟩ | ⟨rfl, -, rfl⟩ | ⟨rfl, rfl⟩
  · simp at he
  · exact loadEvent_loadOpen bytes
  · exact runningPass_loadOpen hp
  · exact waitingPass_loadOpen
  · simp at he
  · simp at he

/-! ### n Ticks (R220) -/

/-- A run goes on from the state that its first step answers. -/
theorem run_succ {M : Host.Core} {s t : M.State} (h : M.step s = .next t) (n : Nat) :
    M.run (n + 1) s = M.run n t := by
  rw [Host.Core.run, h]

theorem countDown_countDown (m n : Nat) (t : Byte) :
    countDown n (countDown m t) = countDown (m + n) t := by
  apply BitVec.eq_of_toNat_eq
  simp only [toNat_countDown]
  omega

theorem countDown_zero (t : Byte) : countDown 0 t = t := by
  apply BitVec.eq_of_toNat_eq
  rw [toNat_countDown, Nat.sub_zero]

theorem ticks_ticks (m n : Nat) (s : State) : ticks n (ticks m s) = ticks (m + n) s := by
  simp [ticks, countDown_countDown]

theorem ticks_zero (s : State) : ticks 0 s = s := by
  simp [ticks, countDown_zero]

/-- `n` pending Ticks, taken one step each, are `ticks n`. -/
theorem run_ticks (n : Nat) {s : State} {rest : List Event}
    (hp : s.pending = List.replicate n .tick ++ rest) (hrs : s.rs ≠ .halted) :
    Host.Core.run core n s = .next { ticks n s with pending := rest } := by
  induction n generalizing s with
  | zero =>
    obtain rfl : s.pending = rest := hp
    rw [ticks_zero]
    exact rfl
  | succ n ih =>
    have hrun := ih (s := ticks 1 { s with pending := List.replicate n .tick ++ rest }) rfl hrs
    rw [ticks_ticks, Nat.add_comm] at hrun
    exact (run_succ (M := core) ((step_pending hp).trans (runEvent_tick hrs)) n).trans hrun
end

/-! ### What memory holds after Reset and after Load (R66, R241, R244) -/

theorem read_reset (fontBase a : Nat) :
    Memory.read { fontBase := fontBase, cells := [] } a = Memory.resetByte fontBase a := rfl

theorem resetByte_glyph (fontBase d k : Nat) :
    Memory.resetByte fontBase (fontBase + 5 * d + k) = fontBytes.getD (5 * d + k) 0 := by
  rw [Memory.resetByte, if_pos (by omega), Nat.add_assoc, Nat.add_sub_cancel_left]

theorem resetByte_outside {fontBase a : Nat} (h : ¬ (fontBase ≤ a ∧ a < fontBase + 80)) :
    Memory.resetByte fontBase a = 0 := by
  unfold Memory.resetByte
  split
  · have hlen : fontBytes.length = 80 := rfl
    rw [List.getD_eq_default _ _ (by omega)]
  · rfl

/-! ### The statements -/

/-- Settles O8: the reset record field by field; memory is the empty list of cells, which reads as the
font and 0. -/
theorem resetEventLeavesResetValues : Obligations.ResetEventLeavesResetValues := by
  intro s q rest hp
  refine ⟨resetEvent q { s with pending := rest }, step_pending hp, rfl, rfl, fun x => ?_, rfl, rfl,
    fun k => ?_, rfl, rfl, fun r c => ?_, rfl, rfl, rfl, rfl, rfl, rfl, rfl, fun d _ k _ => ?_,
    fun a _ ha => ?_, rfl, rfl⟩
  · exact Vector.getElem_replicate x.isLt
  · exact Vector.getElem_replicate k.isLt
  · exact pixel_blank r c
  · exact (read_reset ..).trans (resetByte_glyph ..)
  · exact (read_reset ..).trans (resetByte_outside ha)

/-- Settles O9: an accepted Load is a store of the bytes at 0x200, which end below 4096. -/
theorem loadCopiesOrRefuses : Obligations.LoadCopiesOrRefuses := by
  intro s bytes rest hp hopen hm
  refine ⟨_, (step_pending hp).trans (runEvent_load hopen), fun hlen => ?_, fun hlen => ?_⟩
  · have hread := read_writeBytes hm (a := 0x200) (vs := bytes) (by omega)
    rw [loadEvent_of_le hlen]
    refine ⟨fun k hk => ?_, fun a ha => ?_, writeBytes_fontBase .., rfl⟩
    · exact (hread _).trans (by simp [hk])
    · exact (hread a).trans (dif_neg ha)
  · exact loadEvent_of_gt hlen

/-- Settles O10: the two stops are the tests of `runEvent`, and every Pass and Load taken closes Load. -/
theorem refusedLoadStopsPasses : Obligations.RefusedLoadStopsPasses := by
  intro s s' e hn
  rw [step_of_nextEvent hn]
  refine ⟨?_, ?_, fun t he h => runEvent_loadOpen h he⟩
  · rintro ⟨k, b, rfl⟩ hok
    simp [runEvent, hok]
  · rintro ⟨bytes, rfl⟩ hopen
    simp [runEvent, hopen]

/-- With no event pending: a Pass after a number of Ticks that the clock alone determines. -/
theorem nextEvent_free_countDown {s : State} (h : s.pending = []) :
    nextEvent s = (.pass (Config.keysIn s.clock) (Config.rndIn s.clock),
      { s with dt := BitVec.ofNat 8 (s.dt.toNat - ticksBefore s.clock),
               st := BitVec.ofNat 8 (s.st.toNat - ticksBefore s.clock), clock := s.clock + 1 }) := by
  rw [nextEvent_free h, ticks, countDown_eq, countDown_eq]

/-- Settles O11: the two cases of `nextEvent`, and the wait for a Tick, which is finite. -/
theorem nextEventIsPendingOrFreePass : Obligations.NextEventIsPendingOrFreePass := by
  refine ⟨fun s => ⟨fun e rest h => nextEvent_pending h, fun h => ⟨_, _, _, nextEvent_free_countDown h⟩⟩,
    fun k => ?_⟩
  obtain ⟨j, hj, hpos⟩ := exists_ticksBefore_pos k
  refine ⟨j, hj, ticksBefore j, hpos, ?_⟩
  rintro s hp rfl
  exact ⟨_, _, nextEvent_free_countDown hp⟩

/-- Settles O13: the one Tick, as numbers. -/
theorem tickDecrementsTimers : Obligations.TickDecrementsTimers := fun _ _ hp hrs =>
  ⟨_, (step_pending hp).trans (runEvent_tick hrs), toNat_countDown .., toNat_countDown .., rfl⟩

/-- Settles O14: n steps are `ticks n`, by induction on n. -/
theorem ticksReachZeroAndStay : Obligations.TicksReachZeroAndStay := fun n _ _ hp hrs =>
  ⟨_, run_ticks n hp hrs, toNat_countDown .., toNat_countDown .., rfl⟩

/-! ### The ports (R222 to R224) -/

/-- Bit `r * 64 + c` of the packed rows is bit `c` of row `r`. -/
theorem testBit_fbBits (rows : List (BitVec 64)) {r c : Nat} (hr : r < rows.length) (hc : c < 64) :
    (fbBits rows).testBit (r * 64 + c) = rows[r].getLsbD c := by
  induction rows generalizing r with
  | nil => exact absurd hr (Nat.not_lt_zero r)
  | cons row rest ih =>
    rw [fbBits, Nat.add_comm row.toNat, Nat.testBit_two_pow_mul_add _ row.isLt]
    cases r with
    | zero => rw [if_pos (by omega), Nat.zero_mul, Nat.zero_add]; rfl
    | succ r =>
      rw [if_neg (by omega), show (r + 1) * 64 + c - 64 = r * 64 + c by omega,
        ih (Nat.lt_of_succ_lt_succ hr), List.getElem_cons_succ]

theorem getLsbD_fbPort (s : State) (r : Fin 32) (c : Fin 64) :
    s.fbPort.getLsbD (r.val * 64 + c.val) = Display.pixel s.fb r c := by
  have hlt : r.val * 64 + c.val < 2048 := by omega
  rw [State.fbPort, BitVec.getLsbD_ofNat, testBit_fbBits _ (by simp) c.isLt]
  simp [hlt, Display.pixel]

/-- Settles O15: each port is its field under its code; the display port bit by bit. -/
theorem portsShowTheState : Obligations.PortsShowTheState := by
  intro s
  refine ⟨decide_eq_true_iff, getLsbD_fbPort s, ?_, ?_, ?_, ?_, ?_, ?_, ?_, ?_, rfl, rfl, rfl, rfl,
    fun rest hp => step_pending hp⟩
  · intro h; simp [State.runStatePort, h]
  · intro h; simp [State.runStatePort, h]
  · intro h; simp [State.runStatePort, h]
  · intro h; simp [State.errKindPort, h, ErrKind.code]
  · intro h; simp [State.errKindPort, h, ErrKind.code]
  · intro h; simp [State.errKindPort, h, ErrKind.code]
  · intro h; simp [State.errKindPort, h, ErrKind.code]
  · intro h; simp [State.errKindPort, h, ErrKind.code]

end Sys2Proof.Machine
end

section
/-! Proofs of the statements about the Pass event, its faults and the run state (10_state.md,
43_input.md, 60_exceptions.md, 70_reset_and_hazards.md). -/

namespace Sys2Proof.Machine

/-! ### An enabled Pass (R46, R47) -/

section
variable {s s' t : State} {keys : BitVec 16} {rnd : Byte} {i : Instr}

theorem step_of_passDue_running (h : PassDue s keys rnd s' .running) :
    step s = runningPass (beginPass keys rnd s') := by
  obtain ⟨hn, hok, hrs⟩ := h
  rw [step_of_nextEvent hn]
  simp [runEvent, runPass, hok, hrs]

theorem step_of_passDue_waiting (h : PassDue s keys rnd s' .waitingForKey) :
    step s = .next (waitingPass (beginPass keys rnd s')) := by
  obtain ⟨hn, hok, hrs⟩ := h
  rw [step_of_nextEvent hn]
  simp [runEvent, runPass, hok, hrs]

theorem runningPass_of_fetch_error (h : 4095 < s.pc.toNat + 1) : runningPass s =
    .next (takeFault .outOfBounds s.pc 0 (BitVec.ofNat 17 (max 4096 s.pc.toNat)) s) := by
  rw [runningPass, fetchWord_error h]

theorem runningPass_of_decode_error {w : Word} {e : DecodeError} (hf : s.fetchWord = .ok w)
    (hd : decode w = .error e) :
    runningPass s = .next (takeFault .unknownOpcode s.pc w 0 (s.setPc (s.pc + 2))) := by
  simp only [runningPass, hf, hd]

theorem runningPass_of_decode {w : Word} (hf : s.fetchWord = .ok w) (hd : decode w = .ok i) :
    runningPass s = exec i (s.setPc (s.pc + 2)) := by
  simp only [runningPass, hf, hd]

/-- A Pass executes the instruction that the bytes at `PC` decode to, `PC` advanced first. -/
theorem step_of_decodesAtPc (h : PassDue s keys rnd s' .running) (hd : DecodesAtPc s' i) :
    step s = exec i (s'.entering keys rnd) :=
  (step_of_passDue_running h).trans
    (runningPass_of_decode (s := beginPass keys rnd s') (fetchWord_ok hd.1) (decodeBytes_pair.mp hd.2))

/-- A fetched word that decodes was fetched from bytes that decode. -/
theorem decodesAtPc_of_fetchWord {w : Word} (hpc : s.pc.toNat + 1 ≤ 4095) (hf : s.fetchWord = .ok w)
    (hd : decode w = .ok i) : DecodesAtPc s i := by
  obtain rfl := Except.ok.inj ((fetchWord_ok hpc).symm.trans hf)
  exact ⟨hpc, decodeBytes_pair.mpr hd⟩

/-- A word that matches no row of the table does not decode (R108). -/
theorem decode_error_of_no_row {w : Word} (h : ∀ r ∈ opcodeTable, w &&& r.mask ≠ r.fixed) :
    ∃ e, decode w = .error e := by
  cases hd : decode w with
  | error e => exact ⟨e, rfl⟩
  | ok i =>
    obtain ⟨hmem, hrow⟩ := matches_row_of_decode hd
    exact absurd hrow (h _ hmem)

/-! ### The run state (R35) -/

/-- The run state after a Pass of Running. -/
theorem runningPass_rs (hrs : s.rs = .running) (h : runningPass s = .next t) :
    t.rs = .running ∨ (t.rs = .waitingForKey ∧ ∃ x, DecodesAtPc s (.ldVxK x)) ∨
      (t.rs = .halted ∧ t.err.kind ≠ .none) := by
  rcases runningPass_cases s with ⟨-, hp⟩ | ⟨hpc, w, hf, ⟨e, -, hp⟩ | ⟨i, hd, hp⟩⟩
  · obtain rfl := Host.Outcome.next.inj (hp.symm.trans h)
    exact .inr (.inr ⟨rfl, ErrKind.noConfusion⟩)
  · obtain rfl := Host.Outcome.next.inj (hp.symm.trans h)
    exact .inr (.inr ⟨rfl, ErrKind.noConfusion⟩)
  · rcases exec_next_cases (hp.symm.trans h) with ⟨k, a, he, rfl⟩ | ⟨-, rfl⟩
    · refine .inr (.inr ⟨rfl, ?_⟩)
      rcases executionFault_eq_some he with ⟨rfl, -⟩ | ⟨rfl | rfl, -⟩ <;> exact ErrKind.noConfusion
    · rcases effect_rs i (s.setPc (s.pc + 2)) with he | ⟨x, rfl, he⟩
      · exact .inl (he.trans hrs)
      · exact .inr (.inl ⟨he, x, decodesAtPc_of_fetchWord hpc hf hd⟩)

theorem loadEvent_rs (bytes : List Byte) : (loadEvent bytes s).rs = s.rs := by
  unfold loadEvent
  split <;> rfl

/-- The run state that an event finds is the one before it. -/
theorem nextEvent_rs {e : Event} (h : nextEvent s = (e, s')) : s'.rs = s.rs := by
  rw [nextEvent_state h]

theorem nextEvent_loadOk {e : Event} (h : nextEvent s = (e, s')) : s'.loadOk = s.loadOk := by
  rw [nextEvent_state h]

theorem nextEvent_prevKeys {e : Event} (h : nextEvent s = (e, s')) : s'.prevKeys = s.prevKeys := by
  rw [nextEvent_state h]

/-- A Pass or a Tick in Halted stops (R48). -/
theorem runEvent_halted {e : Event} (hrs : s.rs = .halted) (hok : s.loadOk = true)
    (he : (∃ k b, e = .pass k b) ∨ e = .tick) : runEvent e s = .fault .halted := by
  rcases he with ⟨k, b, rfl⟩ | rfl
  · simp [runEvent, runPass, hok, hrs]
  · simp [runEvent, hrs]

/-- Only a Reset leaves Halted (R209). -/
theorem runEvent_leaves_halted {e : Event} (hrs : s.rs = .halted) (h : runEvent e s = .next t)
    (ht : t.rs ≠ .halted) : ∃ q, e = .reset q := by
  rcases runEvent_next h with ⟨q, he, -⟩ | ⟨bytes, -, -, rfl⟩ | ⟨k, b, -, -, hr, -⟩ |
    ⟨k, b, -, -, hr, -⟩ | ⟨-, hr, -⟩ | ⟨-, rfl⟩
  · exact ⟨q, he⟩
  · exact absurd ((loadEvent_rs bytes).trans hrs) ht
  · exact RunState.noConfusion (hr.symm.trans hrs)
  · exact RunState.noConfusion (hr.symm.trans hrs)
  · exact absurd hrs hr
  · exact absurd hrs ht
end

/-! ### A core parked on a jump to itself (R121, R246) -/

section
variable {s s' : State} {keys : BitVec 16} {rnd : Byte}

/-- The jump takes `PC` back to where it was. -/
theorem runningPass_parked (h : s.Parked) : runningPass s = .next s := by
  obtain ⟨-, nnn, hf, hpc⟩ := h
  rw [runningPass_of_decode hf (decode_encode _), exec_jp, ← hpc]
  rfl

theorem step_parked (h : PassDue s keys rnd s' .running) (hp : s'.Parked) :
    step s = .next (beginPass keys rnd s') :=
  (step_of_passDue_running h).trans (runningPass_parked (s := beginPass keys rnd s') hp)

/-- The state after the next step of a parked core with no event pending. -/
def afterFreePass (s : State) : State :=
  beginPass (Config.keysIn s.clock) (Config.rndIn s.clock)
    { ticks (ticksBefore s.clock) s with clock := s.clock + 1 }

theorem step_parked_free (hp : s.Parked) (hok : s.loadOk = true) (hn : s.pending = []) :
    step s = .next (afterFreePass s) :=
  step_parked ⟨nextEvent_free hn, hok, hp.1⟩ hp

/-- The timers of a parked core, and the passes until the next Tick: both shrink to 0, and a Tick that is
due makes the timers shrink (R221). -/
theorem afterFreePass_decreases (h : ¬ (s.dt = 0 ∧ s.st = 0)) :
    Prod.Lex (· < ·) (· < ·)
      ((afterFreePass s).dt.toNat + (afterFreePass s).st.toNat, passesToTick (afterFreePass s).clock)
      (s.dt.toNat + s.st.toNat, passesToTick s.clock) := by
  have hpos : 0 < s.dt.toNat + s.st.toNat := by
    by_contra hzero
    exact h ⟨BitVec.eq_of_toNat_eq (by simp; omega), BitVec.eq_of_toNat_eq (by simp; omega)⟩
  have hdt : (afterFreePass s).dt.toNat = s.dt.toNat - ticksBefore s.clock := toNat_countDown ..
  have hst : (afterFreePass s).st.toNat = s.st.toNat - ticksBefore s.clock := toNat_countDown ..
  rw [Prod.lex_def]
  cases hw : passesToTick s.clock with
  | zero =>
    have := ticksBefore_pos.mpr hw
    omega
  | succ w =>
    have hw' : passesToTick (afterFreePass s).clock = w := passesToTick_succ hw
    omega

/-- A parked core with no event pending goes on until both timers have run out (R221). -/
theorem parked_timers_run_out (s : State) (hp : s.Parked) (hok : s.loadOk = true) (hn : s.pending = []) :
    ∃ n t, core.run n s = .next t ∧ t.Parked ∧ t.dt = 0 ∧ t.st = 0 ∧ t.v = s.v ∧ t.mem = s.mem :=
  if h : s.dt = 0 ∧ s.st = 0 then ⟨0, s, rfl, hp, h.1, h.2, rfl, rfl⟩
  else
    have ⟨n, t, hrun, ht⟩ := parked_timers_run_out (afterFreePass s) hp hok hn
    ⟨n + 1, t, (run_succ (M := core) (step_parked_free hp hok hn) n).trans hrun, ht⟩
termination_by (s.dt.toNat + s.st.toNat, passesToTick s.clock)
decreasing_by exact afterFreePass_decreases h
end

/-! ### The statements -/

/-- Settles O12: the fetch finds the word of the two bytes, which decodes as they do. -/
theorem stepExecutesDecodedInstruction : Obligations.StepExecutesDecodedInstruction :=
  fun _ _ _ _ _ => step_of_decodesAtPc

/-- Settles O28: the instruction executes with `PC` advanced; neither its fault nor its effect moves it. -/
theorem nonControlAdvancesPcByTwo : Obligations.NonControlAdvancesPcByTwo := by
  intro s s' t keys rnd i hdue hd hi h
  rcases exec_next_cases ((step_of_decodesAtPc hdue hd).symm.trans h) with ⟨k, a, -, rfl⟩ | ⟨-, rfl⟩
  · exact raise_pc ..
  · exact effect_pc hi

/-- Settles O29: the fetch faults, and fault entry writes `RS` and `ERR`. -/
theorem fetchOutOfBoundsHalts : Obligations.FetchOutOfBoundsHalts := by
  intro s s' keys rnd hdue hpc
  exact ⟨_, (step_of_passDue_running hdue).trans (runningPass_of_fetch_error hpc), rfl, rfl, rfl, rfl, rfl,
    toNat_badAddress _, rfl⟩

/-- Settles O30: the word at `PC` is the one given, and it does not decode. -/
theorem unknownOpcodeHalts : Obligations.UnknownOpcodeHalts := by
  intro s s' keys rnd w hdue hpc hw hrow
  have hword : wordOfBytes (s'.mem.read s'.pc.toNat) (s'.mem.read (s'.pc.toNat + 1)) = w :=
    BitVec.eq_of_toNat_eq ((toNat_wordOfBytes ..).trans hw.symm)
  obtain ⟨e, hd⟩ := decode_error_of_no_row hrow
  have hf : (beginPass keys rnd s').fetchWord = .ok w := hword ▸ fetchWord_ok hpc
  exact (step_of_passDue_running hdue).trans (runningPass_of_decode_error hf hd)

/-- Settles O18, event by event: only a Pass and a Reset write `RS`. -/
theorem runStateTransitions : Obligations.RunStateTransitions := by
  intro s s' t e hn ht
  rw [step_of_nextEvent hn] at ht
  rw [← nextEvent_rs hn, ← nextEvent_prevKeys hn]
  rcases runEvent_next ht with ⟨q, rfl, rfl⟩ | ⟨bytes, rfl, -, rfl⟩ | ⟨k, b, rfl, -, hrs, hp⟩ |
    ⟨k, b, rfl, -, hrs, rfl⟩ | ⟨-, -, rfl⟩ | ⟨-, rfl⟩
  · exact .inr (.inr (.inr (.inr ⟨rfl, q, rfl⟩)))
  · exact .inl (loadEvent_rs bytes)
  · rcases runningPass_rs (s := beginPass k b s') hrs hp with h | ⟨h, x, hd⟩ | ⟨h, herr⟩
    · exact .inl (h.trans hrs.symm)
    · exact .inr (.inl ⟨hrs, h, ⟨k, b, rfl⟩, x, hd⟩)
    · exact .inr (.inr (.inr (.inl ⟨hrs, h, ⟨k, b, rfl⟩, herr⟩)))
  · rcases waitingPass_cases (beginPass k b s') with ⟨-, hw⟩ | ⟨key, hkey, hw⟩ <;> rw [hw]
    · exact .inl rfl
    · refine .inr (.inr (.inl ⟨hrs, rfl, k, b, rfl, fun h0 => ?_⟩))
      have hnew : (beginPass k b s').newKeys = 0 := h0
      simp [hnew] at hkey
  · exact .inl rfl
  · exact .inl rfl

/-- Settles O19: the invariant excludes a refused Load in Halted, so a Pass stops there as a Tick does. -/
theorem haltedIsLeftByResetOnly : Obligations.HaltedIsLeftByResetOnly := by
  intro s s' e hinv hrs hn
  have hok : s.loadOk = true := by
    by_contra hne
    have hrun := (hinv.loaded (.inr (Bool.eq_false_iff.mpr hne))).1
    exact RunState.noConfusion (hrs.symm.trans hrun)
  have hrs' : s'.rs = .halted := (nextEvent_rs hn).trans hrs
  rw [step_of_nextEvent hn]
  refine ⟨runEvent_halted hrs' ((nextEvent_loadOk hn).trans hok),
    fun t h ht => runEvent_leaves_halted hrs' h ht, ?_⟩
  rintro rfl
  rfl

/-- Settles O37: the jump leaves the state as the Pass found it, and the finite waits for Ticks take the
timers to 0. -/
theorem parkedCoreStaysParked : Obligations.ParkedCoreStaysParked := by
  refine ⟨fun s s' keys rnd hdue hp => ⟨_, step_parked hdue hp, rfl, hp, ?_⟩, fun s hp hok hn => ?_⟩
  · exact fun hhalt => RunState.noConfusion (hp.1.symm.trans hhalt)
  · obtain ⟨n, t, hrun, ht, hdt, hst, hv, hm⟩ := parked_timers_run_out s hp hok hn
    exact ⟨n, t, hrun, ht, hdt, hst, fun r _ => reg_of_v_eq hv r, fun a => by rw [hm]⟩

/-- Settles O52: a Pass of WaitingForKey refreshes the sample with no new key, and otherwise reports one
of the new keys. -/
theorem waitingPassPollsKeys : Obligations.WaitingPassPollsKeys := by
  intro s s' keys rnd hdue
  refine ⟨_, step_of_passDue_waiting hdue, ?_⟩
  rcases waitingPass_cases (beginPass keys rnd s') with ⟨hnone, hw⟩ | ⟨k, hk, hw⟩ <;> rw [hw]
  · exact ⟨fun _ => rfl, fun hne => absurd hnone hne⟩
  · have hdown : keys.getLsbD k.toNat = true ∧ k.toNat < 16 ∧ s'.prevKeys.getLsbD k.toNat = false := by
      simpa [State.newKeys] using hk
    have hreg : ∀ r, ((beginPass keys rnd s').setReg s'.waitX (k.setWidth 8)).reg r =
        if r = s'.waitX then k.setWidth 8 else s'.reg r :=
      fun r => reg_setReg ..
    refine ⟨fun h0 => ?_, fun _ => ⟨⟨k.toNat, k.isLt⟩, hdown.1, hdown.2.2, ?_, fun r hr => ?_,
      fun _ => rfl, rfl⟩⟩
    · have hnew : (beginPass keys rnd s').newKeys = 0 := h0
      simp [hnew] at hk
    · exact (congrArg BitVec.toNat ((hreg _).trans (if_pos rfl))).trans
        (BitVec.toNat_setWidth_of_le (by decide))
    · exact (hreg r).trans (if_neg hr)

end Sys2Proof.Machine
end

section
/-! Proofs of the statements about the control transfers (40_control_flow.md). -/

namespace Sys2Proof.Machine

/-- The frame of every skip. -/
theorem onlyPc_skipIf (s : State) (c : Bool) : OnlyPc s (s.skipIf c) := onlyPc_setPc s _

/-! ### The call stack -/

/-- Settles O32: the two cases of the call; the pushed entry is the one at the old `SP`. -/
theorem callPushesOrOverflows : Obligations.CallPushesOrOverflows := by
  refine fun nnn s => ⟨fun hlt => ?_, fun hsp => ?_⟩
  · rcases execCall_cases nnn s with ⟨hsp, -⟩ | ⟨_, h⟩
    · omega
    · refine ⟨_, h, toNat_zext16 (by decide) nnn, rfl, fun k => ?_, fun _ => rfl, rfl⟩
      simp only [Fin.getElem_fin, Vector.getElem_set, eq_comm]
  · rcases execCall_cases nnn s with ⟨-, h⟩ | ⟨hlt, -⟩
    · exact ⟨_, h, rfl, rfl, rfl⟩
    · omega

/-- Settles O33: the two cases of the return; the popped entry is the one below `SP`. -/
theorem returnPopsOrUnderflows : Obligations.ReturnPopsOrUnderflows := by
  refine fun s => ⟨fun k hk => ?_, fun hsp => ?_⟩
  · rcases execRet_cases s with ⟨hsp, -⟩ | ⟨_, h⟩
    · omega
    · have htop : s.sp.val - 1 = k.val := by omega
      refine ⟨_, h, ?_, htop, fun _ => rfl, rfl⟩
      simp only [htop, Fin.getElem_fin]
  · rcases execRet_cases s with ⟨-, h⟩ | ⟨hpos, -⟩
    · exact ⟨_, h, rfl, rfl, rfl⟩
    · omega

/-- Settles O34: the return pops the entry that the call pushed, at the same place. -/
theorem returnUndoesCall : Obligations.ReturnUndoesCall := by
  intro nnn s hlt
  obtain ⟨t, hcall, -, htsp, htstack, -, ht⟩ := (callPushesOrOverflows nnn s).1 hlt
  obtain ⟨u, hret, hupc, husp, -, hu⟩ := (returnPopsOrUnderflows t).1 ⟨s.sp.val, hlt⟩ htsp
  have hpc : u.pc = s.pc := hupc.trans ((htstack _).trans (if_pos rfl))
  have hsp : u.sp = s.sp := Fin.ext husp
  have hstack : u.stack = t.stack := by rw [hu]
  refine ⟨t, u, hcall, hret, hpc, hsp, fun k hk => ?_, ?_⟩
  · rw [hstack, htstack k, if_neg (Nat.ne_of_lt hk)]
  · calc u = { t with pc := u.pc, sp := u.sp } := hu
      _ = { s with pc := u.pc, sp := u.sp, stack := t.stack } := by rw [ht]
      _ = { s with stack := u.stack } := by rw [hpc, hsp, hstack]

/-- Nested calls succeed as long as the stack has room for them. -/
theorem execAll_calls (targets : List Addr12) {s : State} (hrs : s.rs = .running)
    (hlen : s.sp.val + targets.length ≤ 16) :
    ∃ t, execAll (targets.map .call) s = some t ∧ t.sp.val = s.sp.val + targets.length := by
  induction targets generalizing s with
  | nil => exact ⟨s, rfl, rfl⟩
  | cons nnn targets ih =>
    rw [List.length_cons] at hlen
    obtain ⟨t, hcall, -, htsp, -, -, ht⟩ := (callPushesOrOverflows nnn s).1 (by omega)
    have htrs : t.rs = .running := by rw [ht]; exact hrs
    obtain ⟨u, hrun, husp⟩ := ih htrs (by omega)
    refine ⟨u, ?_, by rw [List.length_cons]; omega⟩
    simpa [execAll, hcall, htrs] using hrun

/-- Settles O35: 16 calls fill the stack, and a call on a full stack overflows. -/
theorem seventeenthNestedCallOverflows : Obligations.SeventeenthNestedCallOverflows := by
  intro targets last s hrs hsp hlen
  obtain ⟨t, hrun, htsp⟩ := execAll_calls targets hrs (by omega)
  refine ⟨t, hrun, by omega, fun h16 => ?_⟩
  obtain ⟨u, hcall, hurs, herr, hu⟩ := (callPushesOrOverflows last t).2 (by omega)
  exact ⟨u, hcall, hurs, herr, by rw [hu], by rw [hu], by rw [hu]⟩

/-! ### Jump with offset and skips -/

/-- The target of BNNN does not wrap: it is at most 0xFFF + 0xFF. -/
theorem toNat_jumpTarget (nnn : Addr12) (b : Byte) :
    (zext16 nnn + zext16 b).toNat = nnn.toNat + b.toNat := by
  have := nnn.isLt
  have := b.isLt
  rw [BitVec.toNat_add, toNat_zext16 (by decide), toNat_zext16 (by decide)]
  omega

/-- The top nibble of nnn as a number. -/
theorem eq_topNibble {nnn : Addr12} {x : Nibble} (h : x.toNat = nnn.toNat / 256) :
    nnn.extractLsb' 8 4 = x := by
  apply BitVec.eq_of_toNat_eq
  have := nnn.isLt
  rw [BitVec.extractLsb'_toNat, Nat.shiftRight_eq_div_pow, h]
  omega

/-- Settles O36: the offset register by the strap, and the sum without a wrap. -/
theorem jumpWithOffset : Obligations.JumpWithOffset := by
  refine fun nnn s => ⟨_, rfl, onlyPc_setPc s _, fun hq => ?_, fun hq x hx => ?_⟩
  · rw [setPc_pc, toNat_jumpTarget, State.jumpOffset, hq]
    rfl
  · rw [setPc_pc, toNat_jumpTarget, State.jumpOffset, hq, eq_topNibble hx]
    rfl

/-- Settles O38: each skip is `skipIf` of its comparison. -/
theorem skipsCompareAndAdvance : Obligations.SkipsCompareAndAdvance := by
  refine fun x y nn s => ⟨⟨_, rfl, onlyPc_skipIf s _, ?_⟩, ⟨_, rfl, onlyPc_skipIf s _, ?_⟩,
    ⟨_, rfl, onlyPc_skipIf s _, ?_⟩, ⟨_, rfl, onlyPc_skipIf s _, ?_⟩⟩
  · simp only [skipIf_pc, beq_iff_eq]
  · simp only [skipIf_pc, bne_iff_ne, ite_not]
  · simp only [skipIf_pc, beq_iff_eq]
  · simp only [skipIf_pc, bne_iff_ne, ite_not]

end Sys2Proof.Machine
end

section
/-! Proofs of the statements about registers, arithmetic and timers (41_register_alu.md,
45_timers.md). -/

namespace Sys2Proof.Machine

theorem flagByte_decide (p : Prop) [Decidable p] : flagByte (decide p) = if p then 1 else 0 := by
  by_cases h : p <;> simp [flagByte, h]

theorem toNat_flagByte (c : Bool) : (flagByte c).toNat = c.toNat := by
  cases c <;> rfl

/-! ### The statements -/

/-- Settles O40: one register, the sum modulo 256. -/
theorem addImmediateWithoutFlag : Obligations.AddImmediateWithoutFlag := fun x nn s =>
  ⟨_, rfl, by rw [reg_setReg_same, BitVec.toNat_add], onlyRegs_setReg s x _⟩

/-- Settles O41: one register each, and the operation bit by bit. -/
theorem copyAndLogic : Obligations.CopyAndLogic := by
  refine fun x y s => ⟨⟨_, rfl, reg_setReg_same .., onlyRegs_setReg s x _⟩,
    ⟨_, rfl, onlyRegs_setReg s x _, fun k _ => ?_⟩, ⟨_, rfl, onlyRegs_setReg s x _, fun k _ => ?_⟩,
    ⟨_, rfl, onlyRegs_setReg s x _, fun k _ => ?_⟩⟩
  · rw [reg_setReg_same, BitVec.getLsbD_or]
  · rw [reg_setReg_same, BitVec.getLsbD_and]
  · rw [reg_setReg_same, BitVec.getLsbD_xor]

/-- Settles O42: the flag is the carry, and with it the sum modulo 256 is the unbounded sum. -/
theorem addSetsCarry : Obligations.AddSetsCarry := by
  intro x y s
  have hflag := (reg_vf_setFlag (s.setReg x (s.reg x + s.reg y)) (carryFlag (s.reg x) (s.reg y))).trans
    (flagByte_decide _)
  refine ⟨_, rfl, onlyRegs_setReg_setFlag .., hflag, fun hx => ?_⟩
  have hlx := (s.reg x).isLt
  have hly := (s.reg y).isLt
  rw [hflag, reg_dest_setReg_setFlag _ _ _ hx, BitVec.toNat_add]
  split <;> simp <;> omega

/-- The difference of two bytes as a number, with and without a borrow. -/
theorem toNat_sub_byte (a b : Byte) : (a - b).toNat =
    if b.toNat ≤ a.toNat then a.toNat - b.toNat else a.toNat + 256 - b.toNat := by
  have := a.isLt
  have := b.isLt
  rw [BitVec.toNat_sub]
  split <;> omega

/-- Settles O43: both operand orders are a register write of the difference and the flag of the same
comparison. -/
theorem subtractsSetNotBorrow : Obligations.SubtractsSetNotBorrow := by
  refine fun x y s => ⟨⟨_, rfl, onlyRegs_setReg_setFlag .., ?_, fun hx => ?_⟩,
    ⟨_, rfl, onlyRegs_setReg_setFlag .., ?_, fun hx => ?_⟩⟩
  · exact (reg_vf_setFlag ..).trans (flagByte_decide _)
  · rw [reg_dest_setReg_setFlag _ _ _ hx, toNat_sub_byte]
  · exact (reg_vf_setFlag ..).trans (flagByte_decide _)
  · rw [reg_dest_setReg_setFlag _ _ _ hx, toNat_sub_byte]

theorem toNat_shiftRightFlag (b : Byte) : (flagByte (shiftRightFlag b)).toNat = b.toNat % 2 := by
  rw [toNat_flagByte, shiftRightFlag, BitVec.getLsbD, Nat.toNat_testBit, Nat.pow_zero, Nat.div_one]

theorem toNat_shiftLeftFlag (b : Byte) : (flagByte (shiftLeftFlag b)).toNat = b.toNat / 128 := by
  have := b.isLt
  rw [toNat_flagByte, shiftLeftFlag, BitVec.getLsbD, Nat.toNat_testBit]
  omega

/-- Settles O44: the operand by the strap, shifted by one place; the flag is the bit that leaves. -/
theorem shiftsSetBitShiftedOut : Obligations.ShiftsSetBitShiftedOut := by
  intro x y s b hb
  have hop : s.shiftOperand x y = b := hb.symm
  refine ⟨⟨_, rfl, onlyRegs_setReg_setFlag .., ?_, fun hx => ?_⟩,
    ⟨_, rfl, onlyRegs_setReg_setFlag .., ?_, fun hx => ?_⟩⟩
  · rw [reg_vf_setFlag, hop, toNat_shiftRightFlag]
  · rw [reg_dest_setReg_setFlag _ _ _ hx, hop, BitVec.toNat_ushiftRight, Nat.shiftRight_eq_div_pow]
  · rw [reg_vf_setFlag, hop, toNat_shiftLeftFlag]
  · rw [reg_dest_setReg_setFlag _ _ _ hx, hop, BitVec.toNat_shiftLeft, Nat.shiftLeft_eq]
    omega

/-- Settles O45: one register, the random byte under the mask bit by bit. -/
theorem randomIsMasked : Obligations.RandomIsMasked := by
  refine fun x nn s => ⟨_, rfl, onlyRegs_setReg s x _, fun k _ => ?_⟩
  rw [reg_setReg_same, BitVec.getLsbD_and]
  cases nn.getLsbD k <;> simp

/-- Settles O60: each copies one byte, and the audio gate compares `ST` with 0. -/
theorem timerInstructionsCopy : Obligations.TimerInstructionsCopy := by
  refine fun x s => ⟨⟨_, rfl, reg_setReg_same .., onlyRegs_setReg s x _⟩,
    ⟨_, rfl, rfl, fun _ _ => rfl, fun _ => rfl, rfl⟩,
    ⟨_, rfl, rfl, fun _ _ => rfl, fun _ => rfl, rfl, ?_⟩⟩
  rw [State.audioOn, decide_eq_true_iff, Nat.pos_iff_ne_zero, Ne, Ne, ← BitVec.toNat_inj]
  rfl

end Sys2Proof.Machine
end

section
/-! Proofs of the statements about the keypad, the index register and the font (42_display.md,
43_input.md, 44_index_memory.md). -/

namespace Sys2Proof.Machine

/-- The low nibble of a register as a number. -/
theorem toNat_lowNibble (s : State) (x : Nibble) : (s.lowNibble x).toNat = (s.reg x).toNat % 16 :=
  BitVec.toNat_setWidth ..

/-- The key that EX9E and EXA1 test. -/
theorem keyDown_lowNibble (s : State) (x : Nibble) :
    s.keyDown (s.lowNibble x) = s.keys.getLsbD ((s.reg x).toNat % 16) := by
  rw [State.keyDown, toNat_lowNibble]

/-- Settles O50: each is `skipIf` of the test of its key. -/
theorem keySkipsTestTheSample : Obligations.KeySkipsTestTheSample := by
  refine fun x s => ⟨⟨_, rfl, onlyPc_skipIf s _, ?_⟩, ⟨_, rfl, onlyPc_skipIf s _, ?_⟩⟩
  · rw [skipIf_pc, keyDown_lowNibble]
  · rw [skipIf_pc, keyDown_lowNibble]
    cases s.keys.getLsbD ((s.reg x).toNat % 16) <;> rfl

/-- Settles O51: the instruction is this record update. -/
theorem keyWaitBegins : Obligations.KeyWaitBegins := fun _ _ =>
  ⟨_, rfl, rfl, rfl, rfl, fun _ _ => rfl, fun _ => rfl, rfl⟩

/-- The frame of every instruction that only sets `I`. -/
theorem onlyIndexAndRegs_setI (s : State) (a : Word) : OnlyIndexAndRegs (fun _ => False) s (s.setI a) :=
  ⟨fun _ _ => rfl, fun _ => rfl, rfl⟩

/-- Settles O49: the glyph of a nibble lies below 0x200, so its address does not wrap. -/
theorem fontAddress : Obligations.FontAddress := by
  refine fun x s hfont => ⟨_, rfl, onlyIndexAndRegs_setI s _, ?_⟩
  rw [setI_i, State.glyphAddress, toNat_lowNibble, BitVec.toNat_ofNat]
  omega

theorem toNat_indexSum (a : Word) (b : Byte) : (a + zext16 b).toNat = (a.toNat + b.toNat) % 65536 := by
  rw [BitVec.toNat_add, toNat_zext16 (by decide)]

/-- Settles O53: the two meanings of FX1E by the strap. -/
theorem indexSetAndAdd : Obligations.IndexSetAndAdd := by
  refine fun nnn x s => ⟨⟨_, rfl, onlyIndexAndRegs_setI s _, toNat_zext16 (by decide) nnn⟩, ?_⟩
  refine ⟨_, exec_of_no_fault rfl, ?_⟩
  cases hq : s.quirks.addIFlag with
  | false =>
    rw [effect_addI_of_not_flag x hq]
    exact ⟨⟨fun _ _ => rfl, fun _ => rfl, rfl⟩, toNat_indexSum .., fun h => Bool.noConfusion h⟩
  | true =>
    rw [effect_addI_of_flag x hq]
    refine ⟨⟨fun r hr => ?_, fun _ => rfl, rfl⟩, toNat_indexSum .., fun _ => ?_⟩
    · exact (reg_setFlag ..).trans (if_neg fun h => hr ⟨h, rfl⟩)
    · exact (reg_vf_setFlag ..).trans (flagByte_decide _)

end Sys2Proof.Machine
end

section
/-! Proofs of the statements about the display (42_display.md). -/

namespace Sys2Proof.Machine

/-- Settles O46: every pixel of the blank display is false. -/
theorem clearScreen : Obligations.ClearScreen := fun _ =>
  ⟨_, rfl, pixel_blank, fun _ _ => rfl, fun _ => rfl, rfl⟩

section
variable {s t : State} {x y n : Nibble}

/-- The pixels that a draw toggles are those that the sprite covers. -/
theorem mem_drawPixels_iff_covers {r : Fin 32} {c : Fin 64} :
    (r, c) ∈ s.drawPixels x y n ↔ SpriteCovers s x y n r c := by
  rw [mem_drawPixels]
  simp only [pixelTarget_eq_some, SpriteCovers]
  cases s.quirks.drawMode <;> rfl

/-- Some covered pixel is set before the draw. -/
def Collides (s : State) (x y n : Nibble) : Prop :=
  ∃ r c, SpriteCovers s x y n r c ∧ Display.pixel s.fb r c = true

/-- The pixels that a draw toggles depend on the sprite, its place and the draw mode only. -/
theorem drawPixels_congr (hx : t.reg x = s.reg x) (hy : t.reg y = s.reg y) (hmem : t.mem = s.mem)
    (hi : t.i = s.i) (hq : t.quirks = s.quirks) : t.drawPixels x y n = s.drawPixels x y n := by
  rw [State.drawPixels, State.drawPixels, hx, hy, hmem, hi, hq]

/-- What a draw whose bytes lie in memory answers: the toggled display and the collision in VF, and
nothing else changed (R161). -/
theorem exec_drw (hrange : n.toNat = 0 ∨ s.i.toNat + n.toNat ≤ 4096) :
    ∃ t, exec (.drw x y n) s = .next t ∧ OnlyDraws s t ∧
      (∀ r c, Display.pixel t.fb r c =
        (Display.pixel s.fb r c ^^ decide ((r, c) ∈ s.drawPixels x y n))) ∧
      (Collides s x y n → t.reg vf = 1) ∧ (¬ Collides s x y n → t.reg vf = 0) := by
  rcases execDrw_cases x y n s with ⟨h0, hlt, -⟩ | ⟨-, h⟩
  · omega
  · obtain ⟨hpixel, hhit⟩ := togglePixels_drawPixels s x y n
    have hany : ((s.drawPixels x y n).any fun p => Display.pixel s.fb p.1 p.2) = true ↔
        Collides s x y n := by
      simp only [List.any_eq_true, Prod.exists, mem_drawPixels_iff_covers, Collides]
    refine ⟨_, h, ⟨fun r hr => (reg_setFlag ..).trans (if_neg hr), fun _ => rfl, rfl⟩, hpixel,
      fun hc => ?_, fun hc => ?_⟩
    · rw [reg_vf_setFlag, hhit, hany.mpr hc]
      rfl
    · rw [reg_vf_setFlag, hhit, Bool.eq_false_iff.mpr (mt hany.mp hc)]
      rfl
end

/-- Settles O47: a pixel is toggled exactly when it is among those the sprite covers. -/
theorem drawTogglesCoveredPixels : Obligations.DrawTogglesCoveredPixels := by
  intro x y n s hrange
  obtain ⟨t, h, hframe, hpixel, hhit, hmiss⟩ := exec_drw (x := x) (y := y) hrange
  refine ⟨t, h, hframe, fun r c => ⟨fun hc => ?_, fun hc => ?_⟩, hhit, hmiss⟩
  · rw [hpixel, decide_eq_true (mem_drawPixels_iff_covers.mpr hc), Bool.xor_true]
  · rw [hpixel, decide_eq_false (mt mem_drawPixels_iff_covers.mp hc), Bool.xor_false]

/-- Settles O48: both draws toggle the same pixels; on a clear display only the second finds one of them
set. -/
theorem drawTwiceRestoresDisplay : Obligations.DrawTwiceRestoresDisplay := by
  intro x y n s t u hrange ht hx hy hu
  obtain ⟨t', ht', ⟨-, -, hframe⟩, hpixel, -, hmiss⟩ := exec_drw (x := x) (y := y) hrange
  obtain rfl := Host.Outcome.next.inj (ht'.symm.trans ht)
  have hi : t'.i = s.i := by rw [hframe]
  have hsame : t'.drawPixels x y n = s.drawPixels x y n :=
    drawPixels_congr hx hy (by rw [hframe]) hi (by rw [hframe])
  obtain ⟨u', hu', -, hpixel', hhit', -⟩ := exec_drw (s := t') (x := x) (y := y) (hi ▸ hrange)
  obtain rfl := Host.Outcome.next.inj (hu'.symm.trans hu)
  refine ⟨display_ext fun r c => ?_, fun hclear ⟨r, c, hc⟩ => ⟨hmiss ?_, hhit' ⟨r, c, ?_, ?_⟩⟩⟩
  · rw [hpixel', hsame, hpixel, Bool.xor_assoc, Bool.xor_self, Bool.xor_false]
  · rintro ⟨r, c, -, hset⟩
    exact Bool.false_ne_true ((hclear r c).symm.trans hset)
  · rwa [← mem_drawPixels_iff_covers, hsame, mem_drawPixels_iff_covers]
  · rw [hpixel, hclear, decide_eq_true (mem_drawPixels_iff_covers.mpr hc)]
    rfl

end Sys2Proof.Machine
end

section
/-! Proofs of the statements about memory and the instructions that store and load (20_memory.md,
44_index_memory.md). -/

namespace Sys2Proof.Machine

/-! ### A store of consecutive bytes (R62, R69) -/

section
variable {s : State} {a : Nat} {bs : List Byte} (hm : s.mem.wf = true) (ha : a + bs.length ≤ 4096)
include hm ha

theorem read_store {k : Nat} (hk : k < bs.length) : (s.store a bs).mem.read (a + k) = bs[k] := by
  rw [store_mem, read_writeBytes hm ha, dif_pos (by omega)]
  simp only [Nat.add_sub_cancel_left]

/-- The frame of a store, with `I` set or left. -/
theorem onlyStores_store (i : Word) : OnlyStores a bs.length s ((s.store a bs).setI i) :=
  ⟨fun _ _ => rfl, fun _ hb => store_read_outside hm ha hb, writeBytes_fontBase .., rfl⟩
end

/-! ### FX33, FX55, FX65 -/

/-- The digits of a byte, as numbers, spell it. -/
theorem bcdDigits_spec (b : Byte) : ∃ h t o : Byte, bcdDigits b = [h, t, o] ∧
    100 * h.toNat + 10 * t.toNat + o.toNat = b.toNat ∧ h.toNat < 10 ∧ t.toNat < 10 ∧ o.toNat < 10 := by
  have := b.isLt
  refine ⟨_, _, _, rfl, ?_⟩
  simp only [BitVec.toNat_ofNat]
  omega

/-- Settles O54: the bytes stored are the three digits, which spell the value. -/
theorem bcdStoresDecimalDigits : Obligations.BcdStoresDecimalDigits := by
  intro x s hm hi
  rcases execLdB_cases x s with ⟨hlt, -⟩ | ⟨hle, h⟩
  · omega
  · obtain ⟨d, e, f, hbcd, hspec⟩ := bcdDigits_spec (s.reg x)
    rw [hbcd] at h
    have hframe : OnlyStores s.i.toNat 3 s ((s.store s.i.toNat [d, e, f]).setI s.i) :=
      onlyStores_store hm hle s.i
    have h0 := read_store hm (bs := [d, e, f]) hle (k := 0) (by simp)
    have h1 := read_store hm (bs := [d, e, f]) hle (k := 1) (by simp)
    have h2 := read_store hm (bs := [d, e, f]) hle (k := 2) (by simp)
    refine ⟨_, h, hframe, rfl, ?_⟩
    rw [Nat.add_zero] at h0
    rw [h0, h1, h2]
    exact hspec

/-- Settles O55: byte k of the store is `V[k]`. -/
theorem dumpStoresRegisters : Obligations.DumpStoresRegisters := by
  intro x s hm hi
  have hlen := dumpBytes_length s x
  rcases execLdMemVx_cases x s with ⟨hlt, -⟩ | ⟨hle, h⟩
  · omega
  · rw [← hlen] at hle
    have hframe := onlyStores_store hm hle (s.indexAfter x)
    rw [hlen] at hframe
    refine ⟨_, h, hframe, fun k hk => ?_, toNat_indexAfter s x hi⟩
    have hk' : k.toNat < (s.dumpBytes x).length := by omega
    exact (read_store hm hle hk').trans (dumpBytes_getElem s x k hk')

/-- Settles O56: register k takes byte k of memory up to x. -/
theorem loadReadsRegisters : Obligations.LoadReadsRegisters := by
  intro x s hi
  rcases execLdVxMem_cases x s with ⟨hlt, -⟩ | ⟨-, h⟩
  · omega
  · refine ⟨_, h, ⟨fun r hr => ?_, fun _ => rfl, rfl⟩, fun k hk => ?_, toNat_indexAfter s x hi⟩
    · exact (loadRegs_readBytes ..).trans (if_neg hr)
    · exact (loadRegs_readBytes ..).trans (if_pos hk)

/-- Settles O57: the load reads back the bytes that the dump stored. -/
theorem loadAfterDumpRestoresRegisters : Obligations.LoadAfterDumpRestoresRegisters := by
  intro x s t t' u hm hi ht hmem hi' hu k hk
  obtain ⟨_, hdump, -, hstored, -⟩ := dumpStoresRegisters x s hm hi
  obtain rfl := Host.Outcome.next.inj (hdump.symm.trans ht)
  obtain ⟨_, hload, -, hloaded, -⟩ := loadReadsRegisters x t' (hi' ▸ hi)
  obtain rfl := Host.Outcome.next.inj (hload.symm.trans hu)
  rw [hloaded k hk, hmem, hi', hstored k hk]

/-- Settles O58: the two bytes at `PC` are the registers stored there, and the Pass that is due fetches
them. -/
theorem storeIsSeenByNextFetch : Obligations.StoreIsSeenByNextFetch := by
  intro x k l s t keys rnd rest i hm hrs hok hi hl hlx hpc hp hdec ht
  obtain ⟨t', hdump, ⟨-, -, -, hframe⟩, hstored, -⟩ := dumpStoresRegisters x s hm hi
  obtain rfl := Host.Outcome.next.inj (hdump.symm.trans ht)
  have hpend : t'.pending = .pass keys rnd :: rest := by rw [hframe]; exact hp
  have hpc' : t'.pc = s.pc := by rw [hframe]
  have hdue : PassDue t' keys rnd { t' with pending := rest } .running := by
    refine ⟨nextEvent_pending hpend, ?_, ?_⟩
    · show t'.loadOk = true
      rw [hframe]; exact hok
    · show t'.rs = .running
      rw [hframe]; exact hrs
  have hat : DecodesAtPc { t' with pending := rest } i := by
    have hk := hstored k (by omega)
    have hl' := hstored l hlx
    rw [← hpc] at hk
    rw [show s.i.toNat + l.toNat = s.pc.toNat + 1 by omega] at hl'
    simp only [DecodesAtPc, hpc', hk, hl']
    exact ⟨by omega, hdec⟩
  exact step_of_decodesAtPc hdue hat

/-! ### The canonical form (R60) -/

/-- The first byte listed tells two memories apart when the other lists only later addresses. -/
theorem read_ne_of_listed_later {fontBase lo a : Nat} {v : Byte} {rest cs : List Host.Cell}
    (h : canonicalFrom fontBase lo ((a, v) :: rest) = true)
    (hlater : canonicalFrom fontBase (a + 1) cs = true) :
    Memory.read ⟨fontBase, (a, v) :: rest⟩ a ≠ Memory.read ⟨fontBase, cs⟩ a := by
  obtain ⟨-, -, hne, -⟩ := canonicalFrom_cons.mp h
  simpa [Memory.read, lookupCell, lookupCell_below (Nat.lt_succ_self a) hlater] using hne

/-- Two canonical lists that read alike are the same, by induction on the first. -/
theorem cells_eq_of_read_eq {fontBase lo : Nat} {cs cs' : List Host.Cell}
    (h : canonicalFrom fontBase lo cs = true) (h' : canonicalFrom fontBase lo cs' = true)
    (hread : ∀ a, Memory.read ⟨fontBase, cs⟩ a = Memory.read ⟨fontBase, cs'⟩ a) : cs = cs' := by
  induction cs generalizing lo cs' with
  | nil =>
    cases cs' with
    | nil => rfl
    | cons c' rest' => exact absurd (hread c'.1).symm (read_ne_of_listed_later h' rfl)
  | cons c rest ih =>
    obtain ⟨a, v⟩ := c
    cases cs' with
    | nil => exact absurd (hread a) (read_ne_of_listed_later h rfl)
    | cons c' rest' =>
      obtain ⟨b, u⟩ := c'
      obtain ⟨-, ha, hv, hrest⟩ := canonicalFrom_cons.mp h
      obtain ⟨-, hb, hu, hrest'⟩ := canonicalFrom_cons.mp h'
      rcases Nat.lt_trichotomy a b with hab | rfl | hab
      · exact absurd (hread a) (read_ne_of_listed_later h (canonicalFrom_cons.mpr ⟨hab, hb, hu, hrest'⟩))
      · have hvu : v = u := by simpa [Memory.read, lookupCell] using hread a
        have htail : ∀ x, Memory.read ⟨fontBase, rest⟩ x = Memory.read ⟨fontBase, rest'⟩ x := by
          intro x
          by_cases hx : x = a
          · simp [Memory.read, hx, lookupCell_below (Nat.lt_succ_self a) hrest,
              lookupCell_below (Nat.lt_succ_self a) hrest']
          · simpa [Memory.read, lookupCell, hx] using hread x
        rw [hvu, ih hrest hrest' htail]
      · exact absurd (hread b).symm
          (read_ne_of_listed_later h' (canonicalFrom_cons.mpr ⟨hab, ha, hv, hrest⟩))

/-- Settles O59: the fields of the two memories are equal, the listed bytes by the canonical form. -/
theorem memoriesThatReadAlikeAreEqual : Obligations.MemoriesThatReadAlikeAreEqual := by
  rintro ⟨fontBase, cs⟩ ⟨_, cs'⟩ hm hm' rfl hread
  exact congrArg (Memory.mk fontBase)
    (cells_eq_of_read_eq (Memory.wf_iff.mp hm).2 (Memory.wf_iff.mp hm').2 hread)

end Sys2Proof.Machine
end
